-- ==== Sys2Proof/Word.lean ====
section
/-! DEFINITION. The widths of the block's state elements (spec/00_scope.md R9 §6.1). -/

namespace Sys2Proof

/-- `u32`: `ACC`, `RESULT`, `MAGIC`, a histogram counter, a modulator word, a command word. -/
abbrev Word := BitVec 32

/-- `u16` or the pattern of an `i16`: a converter sample, a correction entry, the operand field `arg`. -/
abbrev Half := BitVec 16

/-- `u8`: a byte of the record buffer, the operation code `op`. -/
abbrev Byte := BitVec 8

/-- `u12`: a target level or a raw code in range (spec/00_scope.md R7, `LEVELS` = 4096). -/
abbrev Level := BitVec 12

end Sys2Proof
end

