-- ==== Sys2Proof/Syntax.lean ====
section
/-! DEFINITION. The commands of the engine: one constructor per row of spec/opcode_table.json
(spec/30_encoding.md R63), with the operand each format carries (R61). -/

namespace Sys2Proof

/-- The 13 commands. An operand has exactly the width its format gives it (R61, R62). -/
inductive Instr where
  /-- `WG.INIT`, format Z (spec/40_waveform_generator.md R81). -/
  | wgInit
  /-- `WG.SETT level`, format L12 (R85). -/
  | wgSett (level : Level)
  /-- `WG.FEED`, format Z (R86). -/
  | wgFeed
  /-- `SMP.RAW`, format Z (spec/41_sampler.md R102). -/
  | smpRaw
  /-- `SMP.AVG n`, format N16 (R103). -/
  | smpAvg (n : Half)
  /-- `HST.CLR`, format Z (spec/42_histogram_collector.md R111). -/
  | hstClr
  /-- `HST.REC code`, format U16 (R113). -/
  | hstRec (code : Half)
  /-- `HST.COLLECT`, format Z (R114). -/
  | hstCollect
  /-- `LUT.BUILD`, format Z (spec/43_lut_builder.md R126). -/
  | lutBuild
  /-- `LUT.SMOOTH`, format Z (spec/44_boundary_smoother.md R141). -/
  | lutSmooth
  /-- `LUT.CORRECT raw`, format L12 (spec/45_runtime_corrector.md R150). -/
  | lutCorrect (raw : Level)
  /-- `REC.STORE`, format Z (spec/46_calibration_record.md R156). -/
  | recStore
  /-- `REC.LOAD size`, format U16 (R157). -/
  | recLoad (size : Half)
  deriving DecidableEq, Repr

end Sys2Proof
end

