-- ==== Sys2Proof/WellFormed.lean ====
section
/-! DEFINITION. Which terms of `Instr` are commands. The operand widths are in the type; the one further
constraint of spec/30_encoding.md R61 is that an N16 operand is not 0. -/

namespace Sys2Proof

/-- The constraint column of R61: `SMP.AVG 0` is a reserved encoding, everything else is a command. -/
def Instr.wellFormed : Instr → Bool
  | .smpAvg n => n != 0
  | .wgInit | .wgSett _ | .wgFeed | .smpRaw | .hstClr | .hstRec _ | .hstCollect | .lutBuild | .lutSmooth
  | .lutCorrect _ | .recStore | .recLoad _ => true

end Sys2Proof
end

