-- ==== Sys2Proof/Decode.lean ====
section
/-! DEFINITION. The command encoding of spec/30_encoding.md: byte order (spec/20_memory.md R42), the fields of the
command word (R60), the operand formats (R61), the decoder (R63, R64), total and rejecting by name, and the encoder. -/

namespace Sys2Proof

/-! ## Byte order: little-endian everywhere (R42) -/

/-- `LE16(v)`: two bytes, least significant first. -/
def le16 (v : Half) : List Byte := [v.extractLsb' 0 8, v.extractLsb' 8 8]

/-- `LE32(v)`: four bytes, least significant first. -/
def le32 (v : Word) : List Byte :=
  [v.extractLsb' 0 8, v.extractLsb' 8 8, v.extractLsb' 16 8, v.extractLsb' 24 8]

/-- The half-word whose little-endian bytes are given, lowest address first. -/
def ofLe16 (b0 b1 : Byte) : Half := b1 ++ b0

/-- The word whose little-endian bytes are given, lowest address first. -/
def ofLe32 (b0 b1 b2 b3 : Byte) : Word := b3 ++ b2 ++ b1 ++ b0

/-! ## The fields of a command word (R60) -/

/-- `op`, bits 31:24. -/
def opOf (w : Word) : Byte := w.extractLsb' 24 8

/-- `rsv`, bits 23:16. -/
def rsvOf (w : Word) : Byte := w.extractLsb' 16 8

/-- `arg`, bits 15:0. -/
def argOf (w : Word) : Half := w.extractLsb' 0 16

/-- The word with the given `op` and `arg` and `rsv` = 0. -/
def packWord (op : Byte) (arg : Half) : Word := op ++ (0#8) ++ arg

/-! ## Decoding -/

/-- Why a word is reserved (R64). All of these raise the one cause `ILLEGAL_COMMAND`. -/
inductive Reserved where
  /-- No row has this operation code. -/
  | opcode (op : Byte)
  /-- `rsv` is not 0. -/
  | reservedBits (rsv : Byte)
  /-- The operand breaks its format's constraint: Z with `arg` ≠ 0, L12 with `arg[15:12]` ≠ 0, N16 with `arg` = 0. -/
  | operand (arg : Half)
  /-- Fewer bytes than one command word (only of a byte sequence; a host write always delivers a whole word). -/
  | short
  deriving DecidableEq, Repr

/-- Format Z: `arg` must be 0 (R61). -/
def formatZ (arg : Half) (i : Instr) : Except Reserved Instr :=
  if arg = 0 then .ok i else .error (.operand arg)

/-- Format L12: bits 11:0 are the operand, `arg[15:12]` must be 0 (R61). -/
def formatL12 (arg : Half) (f : Level → Instr) : Except Reserved Instr :=
  if arg.extractLsb' 12 4 = 0 then .ok (f (arg.extractLsb' 0 12)) else .error (.operand arg)

/-- Format U16: any 16-bit operand (R61). -/
def formatU16 (arg : Half) (f : Half → Instr) : Except Reserved Instr :=
  .ok (f arg)

/-- Format N16: a non-zero count (R61). -/
def formatN16 (arg : Half) (f : Half → Instr) : Except Reserved Instr :=
  if arg = 0 then .error (.operand arg) else .ok (f arg)

/-- The opcode map of R63, by `op`. -/
def decodeOp (op : Byte) (arg : Half) : Except Reserved Instr :=
  match op with
  | 0x01#8 => formatZ arg .wgInit
  | 0x02#8 => formatL12 arg .wgSett
  | 0x03#8 => formatZ arg .wgFeed
  | 0x10#8 => formatZ arg .smpRaw
  | 0x11#8 => formatN16 arg .smpAvg
  | 0x20#8 => formatZ arg .hstClr
  | 0x21#8 => formatU16 arg .hstRec
  | 0x22#8 => formatZ arg .hstCollect
  | 0x30#8 => formatZ arg .lutBuild
  | 0x31#8 => formatZ arg .lutSmooth
  | 0x32#8 => formatL12 arg .lutCorrect
  | 0x40#8 => formatZ arg .recStore
  | 0x41#8 => formatU16 arg .recLoad
  | _ => .error (.opcode op)

/-- The decoder of R63: every word selects one command or is reserved (R64, R65). -/
def decode (w : Word) : Except Reserved Instr :=
  if rsvOf w = 0 then decodeOp (opOf w) (argOf w) else .error (.reservedBits (rsvOf w))

/-- Decoding a byte sequence: the first four bytes, little-endian, are the command word; the rest is returned. -/
def decodeBytes : List Byte → Except Reserved (Instr × List Byte)
  | b0 :: b1 :: b2 :: b3 :: rest =>
    match decode (ofLe32 b0 b1 b2 b3) with
    | .ok i => .ok (i, rest)
    | .error r => .error r
  | [] | [_] | [_, _] | [_, _, _] => .error .short

/-! ## Encoding -/

/-- The command word of a well-formed command (the `match` column of R63 with the operand in its bits). -/
def encode : Instr → Word
  | .wgInit => packWord 0x01#8 0
  | .wgSett level => packWord 0x02#8 (0#4 ++ level)
  | .wgFeed => packWord 0x03#8 0
  | .smpRaw => packWord 0x10#8 0
  | .smpAvg n => packWord 0x11#8 n
  | .hstClr => packWord 0x20#8 0
  | .hstRec code => packWord 0x21#8 code
  | .hstCollect => packWord 0x22#8 0
  | .lutBuild => packWord 0x30#8 0
  | .lutSmooth => packWord 0x31#8 0
  | .lutCorrect raw => packWord 0x32#8 (0#4 ++ raw)
  | .recStore => packWord 0x40#8 0
  | .recLoad size => packWord 0x41#8 size

/-! ## Mnemonics and assembler text -/

/-- The mnemonic of R63. -/
def Instr.mnemonic : Instr → String
  | .wgInit => "WG.INIT"
  | .wgSett _ => "WG.SETT"
  | .wgFeed => "WG.FEED"
  | .smpRaw => "SMP.RAW"
  | .smpAvg _ => "SMP.AVG"
  | .hstClr => "HST.CLR"
  | .hstRec _ => "HST.REC"
  | .hstCollect => "HST.COLLECT"
  | .lutBuild => "LUT.BUILD"
  | .lutSmooth => "LUT.SMOOTH"
  | .lutCorrect _ => "LUT.CORRECT"
  | .recStore => "REC.STORE"
  | .recLoad _ => "REC.LOAD"

/-- The operand as an unsigned integer, where the format has one (R62: no sign extension, scale or shift). -/
def Instr.operand : Instr → Option Nat
  | .wgSett level => some level.toNat
  | .smpAvg n => some n.toNat
  | .hstRec code => some code.toNat
  | .lutCorrect raw => some raw.toNat
  | .recLoad size => some size.toNat
  | .wgInit | .wgFeed | .smpRaw | .hstClr | .hstCollect | .lutBuild | .lutSmooth | .recStore => none

/-- The assembler text of R66: `MNEMONIC` or `MNEMONIC operand`, the operand in decimal. -/
def Instr.asm (i : Instr) : String :=
  match i.operand with
  | none => i.mnemonic
  | some n => i.mnemonic ++ " " ++ toString n

/-- The pseudo-command `CAL.RUN` (R67): its four commands, in order. -/
def calRun : List Instr := [.hstCollect, .lutBuild, .lutSmooth, .recStore]

/-! ## The table of R63, as the spec prints it -/

/-- One row of R63: the mnemonic, the match and the mask, and whether the row asks for `arg` ≠ 0. -/
structure Row where
  mnemonic : String
  matchBits : Word
  mask : Word
  nonZeroArg : Bool
  deriving DecidableEq, Repr

/-- The 13 rows of R63. -/
def table : List Row :=
  [ ⟨"WG.INIT", 0x01000000#32, 0xFFFFFFFF#32, false⟩,
    ⟨"WG.SETT", 0x02000000#32, 0xFFFFF000#32, false⟩,
    ⟨"WG.FEED", 0x03000000#32, 0xFFFFFFFF#32, false⟩,
    ⟨"SMP.RAW", 0x10000000#32, 0xFFFFFFFF#32, false⟩,
    ⟨"SMP.AVG", 0x11000000#32, 0xFFFF0000#32, true⟩,
    ⟨"HST.CLR", 0x20000000#32, 0xFFFFFFFF#32, false⟩,
    ⟨"HST.REC", 0x21000000#32, 0xFFFF0000#32, false⟩,
    ⟨"HST.COLLECT", 0x22000000#32, 0xFFFFFFFF#32, false⟩,
    ⟨"LUT.BUILD", 0x30000000#32, 0xFFFFFFFF#32, false⟩,
    ⟨"LUT.SMOOTH", 0x31000000#32, 0xFFFFFFFF#32, false⟩,
    ⟨"LUT.CORRECT", 0x32000000#32, 0xFFFFF000#32, false⟩,
    ⟨"REC.STORE", 0x40000000#32, 0xFFFFFFFF#32, false⟩,
    ⟨"REC.LOAD", 0x41000000#32, 0xFFFF0000#32, false⟩ ]

/-- Whether a word selects a row: `match = w AND mask`, and `arg` ≠ 0 where the row asks for it (R63). -/
def Row.selects (r : Row) (w : Word) : Bool :=
  w &&& r.mask == r.matchBits && (!r.nonZeroArg || argOf w != 0)

/-! ## The host's reading of a table word -/

/-- The command the decoder reads from the `nbits` bits `w`: the word with every bit above `nbits` zero, laid out in
bytes least significant first (R42) and given to the decoder. Assumption 16. -/
def decodeTableWord (nbits w : Nat) : Option Instr :=
  if nbits ≤ 32 then
    match decodeBytes (le32 (BitVec.ofNat 32 (w % 2 ^ nbits))) with
    | .ok (i, _) => some i
    | .error _ => none
  else none

end Sys2Proof
end

