-- ==== Sys2Proof/Config.lean ====
section
/-! DEFINITION. The fixed constants (spec/00_scope.md R7), the open parameters (R8) and the free values of the
calibration engine. A constant without a body is a value the spec leaves open: nothing can be proved of it. -/

namespace Sys2Proof.Config

/-- `TSHIFT`: the left shift of the target into the accumulator's range (R7). -/
def tshift : Nat := 20

/-- `MAGIC_VALID`: the sentinel that marks a record valid (R7). -/
def magicValid : Word := 0xCA11B8ED#32

/-- `REC_SIZE`: the size of the Calibration Record in bytes (R7). -/
def recSize : Nat := 8200

/-- `BOUNDARIES`: the four smoothing boundaries (R7). -/
def boundaries : List Nat := [512, 1536, 2560, 3584]

/-- `RADIUS`: the smoothing radius in codes on each side (R7). -/
def radius : Nat := 16

/-- One less than the open parameter `QDEPTH` (R8: an integer of at least 1). Assumption 4. -/
opaque qdepthPred : Nat

/-- `QDEPTH`: the capacity of the output queue, any number from 1 on (R8, spec/10_state.md R13). Assumption 4. -/
def qdepth : Nat := qdepthPred + 1

/-- `SETTLE_TICKS_RESET`: the open reset value of `SETTLE_TICKS` (R8). Assumption 5. -/
opaque settleTicksReset : Word

/-- The converter's answer to the n-th read since the model began (spec/93_implementation_defined.md U9). Assumption 3. -/
opaque adcDraw : Nat → Half

/-- How many turns the serializer takes no step in before the k-th turn in which it takes one: any finite number
(spec/20_memory.md R49, and spec/40_waveform_generator.md R89: an enabled step is eventually taken). Assumption 2. -/
opaque idleTurns : Nat → Nat

/-- One less than the number of steps the serializer takes in the k-th turn in which it takes one: any finite number
(spec/20_memory.md R49). Assumption 2. -/
opaque busyStepsPred : Nat → Nat

/-- What `QLEVEL` reads while `n` words are queued and `n` does not fit its 32 bits (spec/10_state.md R13, R34 state no
value). Assumption 21. -/
opaque overlongQlevel : Nat → Word

/-- The level of `DOUT` at the n-th turn while nothing drives it (spec/93_implementation_defined.md U2). Assumption 8. -/
opaque pinLevel : Nat → Bool

/-- The n-th result of a `LUT.CORRECT` run without a valid calibration, any value in 0 to 4095
(spec/93_implementation_defined.md U1). Assumption 9. -/
opaque uncalibratedCode : Nat → Level

/-- What byte `a` of `RECBUF` holds after the n-th reset (spec/93_implementation_defined.md U6). Assumption 6. -/
opaque recbufReset : Nat → Nat → Byte

/-- What `SR` holds after the n-th reset (spec/93_implementation_defined.md U7). Assumption 7. -/
opaque srReset : Nat → Word

end Sys2Proof.Config
end

