-- ==== Sys2Proof/Machine/State.lean ====
section
/-! DEFINITION. The state of the calibration engine (spec/10_state.md), as plain data, its reset values
(spec/70_reset_and_hazards.md R196), and the reasons a step can stop. -/

namespace Sys2Proof.Machine

/-- The cause of the most recently completed command (spec/60_exceptions.md R171). Codes 5 to 15 are never produced. -/
inductive Cause where
  /-- Code 0: success. -/
  | none
  /-- Code 1, `WG.FEED` with the queue full (R172). -/
  | queueFull
  /-- Code 2, `REC.LOAD` with a wrong size or magic (R173). -/
  | dataInvalid
  /-- Code 3, `LUT.BUILD` of an all-zero histogram (R175). -/
  | emptyHistogram
  /-- Code 4, a reserved command word (R176). -/
  | illegalCommand
  deriving DecidableEq, Repr

/-- The stored fields of `STATUS` (spec/10_state.md R21); `VALID`, `QFULL` and `QEMPTY` are derived (Flags.lean). -/
structure Status where
  /-- Bit 0: the outcome of the most recently completed command. -/
  ok : Bool
  /-- Bit 4, sticky: an illegal command was written. -/
  ill : Bool
  /-- Bits 11:8. -/
  cause : Cause
  deriving DecidableEq, Repr

/-- `DOUT` (spec/10_state.md R28): the bit the last `shift` drove, or undriven, when its level is open
(spec/93_implementation_defined.md U2, and, by the model's choice, on until the next `shift`). Assumption 8. -/
inductive Pin where
  | undriven
  | driven (level : Bool)
  deriving DecidableEq, Repr

/-- The phase of a level visit of `HST.COLLECT` with its count (spec/10_state.md R25). -/
inductive Phase where
  | settle (tick : Nat)
  | sample (count : Nat)
  deriving DecidableEq, Repr

/-- `SEQ`, the engine's sequencer (spec/10_state.md R25). Assumption 14. -/
inductive Seq where
  /-- No command in flight. -/
  | idle
  /-- `HST.COLLECT`: the latched configuration and the loop position. -/
  | collect (ns spl st : Nat) (pass : Nat) (level : Level) (phase : Phase)
  /-- `SMP.AVG n`: the running sum and the count done. -/
  | avg (n : Nat) (sum : Nat) (count : Nat)
  deriving DecidableEq, Repr

/-- What the host does to the block: an access of `bytes` bytes at an offset from the block's base address
(spec/00_scope.md R9 §6.2, `MemRead` and `MemWrite`; spec/10_state.md R34), or the reset input
(spec/70_reset_and_hazards.md R195). Assumptions 10 and 13. -/
inductive HostEvent where
  | read (offset : BitVec 16) (bytes : Nat)
  | write (offset : BitVec 16) (bytes : Nat) (value : Word)
  | reset
  deriving DecidableEq, Repr

/-- The world outside the block as the model carries it: what the host does next, the environment's answers that are
already fixed, the indices of the free values, and what the last host read returned. None of it is the spec's own
state. Assumptions 2, 3, 9, 10, 12, 13 and 17. -/
structure Env where
  /-- The host's events still to come, oldest first. -/
  host : List HostEvent
  /-- Converter answers already fixed; when the list is used up every answer is free. -/
  adc : List Half
  /-- Serializer turn lengths already fixed; when the list is used up every length is free. -/
  schedule : List Nat
  /-- Converter reads so far. -/
  draws : Nat
  /-- Serializer turns so far. -/
  turns : Nat
  /-- `LUT.CORRECT` commands run without a valid calibration so far. -/
  uncal : Nat
  /-- Reset events so far. -/
  resets : Nat
  /-- The value the last host read returned. -/
  rdata : Word
  deriving DecidableEq, Repr

/-- Byte memory: (address, byte) cells in one canonical form (`Memory.wf`, Ops.lean). -/
abbrev Memory := List Host.Cell

/-- The output path: what the engine and the serializer share, and what the serializer alone holds
(spec/20_memory.md R49). -/
structure Output where
  /-- `Q`, head first (R13). -/
  q : List Word
  /-- `SR` (R14). -/
  sr : Word
  /-- `SRCNT`, 0 to 32 (R14). -/
  srcnt : Nat
  /-- `DOUT` (R28). -/
  dout : Pin
  /-- `OUT`, the ghost history of driven bits, oldest first (R28). -/
  out : List Bool
  deriving DecidableEq, Repr

/-- The whole state of the block (spec/10_state.md §1), and the model's environment. -/
structure State where
  /-- `TARGET` (R10). -/
  target : Level
  /-- `ACC` (R11). -/
  acc : Word
  /-- `Q`, `SR`, `SRCNT`, `DOUT` and `OUT`. -/
  output : Output
  /-- `HIST` (R15). -/
  hist : Vector Word 4096
  /-- `CORR`, each entry the two's-complement pattern of an i16 (R16). -/
  corr : Vector Half 4096
  /-- `CODE_MIN` (R17). -/
  codeMin : Half
  /-- `CODE_MAX` (R17). -/
  codeMax : Half
  /-- `MAGIC` (R18). -/
  magic : Word
  /-- `RESULT` (R20). -/
  result : Word
  /-- The stored fields of `STATUS` (R21). -/
  status : Status
  /-- `NUM_SWEEPS` (R22). -/
  numSweeps : Byte
  /-- `SAMPLES_PER_LEVEL` (R23). -/
  samplesPerLevel : Half
  /-- `SETTLE_TICKS` (R24). -/
  settleTicks : Word
  /-- `SEQ` (R25). -/
  seq : Seq
  /-- `RECBUF`, keyed by byte offset of the record, 0 to 8199 (R26). -/
  recbuf : Memory
  /-- The model's environment. -/
  env : Env
  deriving DecidableEq, Repr

/-- No condition in the block stops the engine (spec/60_exceptions.md R170: "There are no traps"), so no step of the
model ends in a fault and the type has no constructor. Assumption 18. -/
inductive Fault
  deriving DecidableEq, Repr

/-- What the model rejects by name. -/
inductive Refusal where
  /-- An instruction without a meaning. No arm of `exec` raises it. Safe. -/
  | notModelled (mnemonic : String)
  /-- A host access to an offset the address map does not use (spec/20_memory.md R44, spec/93_implementation_defined.md
  U5: "Model treatment: refuse"). Raised by `hostRead` and `hostWrite`. Safe: the spec's hardware goes on. -/
  | reservedOffset (offset : Nat)
  /-- A host access of a size or alignment that spec/20_memory.md R43 does not list (R44, U5). Raised by `hostRead` and
  `hostWrite`. Safe: the spec's hardware goes on. -/
  | illSizedAccess (offset : Nat) (bytes : Nat)
  deriving DecidableEq, Repr

/-- The environment before anything has happened. Assumption 17. -/
def Env.reset : Env where
  host := []
  adc := []
  schedule := []
  draws := 0
  turns := 0
  uncal := 0
  resets := 0
  rdata := 0

/-- The block right after its n-th reset, in the environment given: every value of R196. `SR` and `RECBUF` are not
reset; `RECBUF` lists nothing, so each byte reads as the free value of this reset. Assumptions 6 and 7. -/
def State.resetAt (n : Nat) (env : Env) : State where
  target := 0
  acc := 0
  output := { q := [], sr := Config.srReset n, srcnt := 0, dout := .undriven, out := [] }
  hist := Vector.replicate 4096 0
  corr := Vector.replicate 4096 0
  codeMin := 0
  codeMax := 4095
  magic := 0
  result := 0
  status := { ok := false, ill := false, cause := .none }
  numSweeps := 4
  samplesPerLevel := 128
  settleTicks := Config.settleTicksReset
  seq := .idle
  recbuf := []
  env := { env with resets := n }

/-- The machine right after reset (R195, R196). -/
def State.reset : State := State.resetAt 0 Env.reset

end Sys2Proof.Machine
end

