-- ==== Sys2Proof/Machine/Flags.lean ====
section
/-! DEFINITION. The `STATUS` register: the cause codes (spec/60_exceptions.md R171), the derived flags and the word a
read returns (spec/10_state.md R21). -/

namespace Sys2Proof.Machine

/-- The code of a cause (R171). -/
def Cause.code : Cause → BitVec 4
  | .none => 0
  | .queueFull => 1
  | .dataInvalid => 2
  | .emptyHistogram => 3
  | .illegalCommand => 4

/-- `STATUS.VALID`: `MAGIC` is the sentinel (R21). -/
def State.valid (s : State) : Bool := s.magic == Config.magicValid

/-- `STATUS.QFULL`: `Qlen` = `QDEPTH` (R21). -/
def State.qfull (s : State) : Bool := s.output.q.length == Config.qdepth

/-- `STATUS.QEMPTY`: `Qlen` = 0 (R21). -/
def State.qempty (s : State) : Bool := s.output.q.length == 0

/-- The word a read of `STATUS` returns (R21): bits 31:12 and 7:5 read 0. -/
def State.statusWord (s : State) : Word :=
  (0#20) ++ s.status.cause.code ++ (0#3) ++ BitVec.ofBool s.status.ill ++ BitVec.ofBool s.qempty
    ++ BitVec.ofBool s.qfull ++ BitVec.ofBool s.valid ++ BitVec.ofBool s.status.ok

end Sys2Proof.Machine
end

