-- ==== Sys2Proof/Machine/Operands.lean ====
section
/-! DEFINITION. How commands read their operands and the tables, and the arithmetic of spec/00_scope.md R9 §6.1:
sign extension, clamping, rounding. -/

namespace Sys2Proof.Machine

/-- A table of `n` entries given by a function of the index. -/
def tabulate {α : Type} (n : Nat) (f : Nat → α) : Vector α n :=
  ⟨((List.range n).map f).toArray, by simp⟩

/-- `HIST[i]` (spec/20_memory.md R55: the index is a raw code). -/
def State.histAt (s : State) (i : Nat) : Word := s.hist.getD i 0

/-- The entry `i` of a correction table, sign-extended (R9: `sext` of a 16-bit cell). -/
def entryAt (t : Vector Half 4096) (i : Nat) : Int := (t.getD i 0).toInt

/-- `sext(CORR[i])`. -/
def State.corrAt (s : State) (i : Nat) : Int := entryAt s.corr i

/-- `clamp(v, lo, hi)` (R9). -/
def clamp (v lo hi : Int) : Int := if v < lo then lo else if v > hi then hi else v

/-- `round_hd(p / q)`: round to nearest, ties toward minus infinity (R9), for `q` > 0. Lean's `/` on integers with a
positive divisor is the floor division of R9. -/
def roundHd (p q : Int) : Int := (2 * p + q - 1) / (2 * q)

/-- The rounded mean of `n` samples with the given sum (spec/41_sampler.md R103, R104), for `n` > 0. -/
def roundedMean (sum n : Nat) : Nat := (sum + n / 2) / n

end Sys2Proof.Machine
end

