-- ==== Sys2Proof/Machine/Ops.lean ====
section
/-! DEFINITION. The operations every command is built of: completing and failing (spec/60_exceptions.md R179), the
record buffer's memory, the modulator's feed (spec/40_waveform_generator.md R83, R84), the serializer (R89), the
converter draw (spec/10_state.md R27), the sample (spec/41_sampler.md R101), the increment
(spec/42_histogram_collector.md R112) and the reset event (spec/70_reset_and_hazards.md R195). -/

namespace Sys2Proof.Machine

/-! ## Completing and failing -/

/-- A command completes with success: `RESULT <- r`, `STATUS.OK <- 1`, `STATUS.CAUSE <- 0`. -/
def State.complete (r : Word) (s : State) : State :=
  { s with result := r, status := { s.status with ok := true, cause := .none } }

/-- `raise <Cause>()`: what stands in for taking an exception (spec/00_scope.md R9 §6.3, spec/60_exceptions.md R179).
One indivisible step; nothing is saved and nothing vectors anywhere. -/
def State.raise (c : Cause) (s : State) : State :=
  { s with result := 0, status := { ok := false, ill := s.status.ill || c == .illegalCommand, cause := c } }

/-- What stands in for the return (spec/60_exceptions.md R180): nothing but the host's write of 1 to `STATUS.ILL`. -/
def State.clearIll (s : State) : State :=
  { s with status := { s.status with ill := false } }

/-! ## The record buffer's memory -/

/-- What a byte that nothing has written since the n-th reset reads as (spec/93_implementation_defined.md U6: any
value, chosen at reset, then stable). Assumption 6. -/
def Memory.unlisted (n a : Nat) : Byte := Config.recbufReset n a

/-- The canonical form: offsets strictly rising and inside the record, no cell equal to what an unlisted offset reads
as. -/
abbrev Memory.wf (n : Nat) (m : Memory) : Prop :=
  m.Pairwise (fun c d => c.1 < d.1) ∧ ∀ c ∈ m, c.1 < 8200 ∧ c.2 ≠ Memory.unlisted n c.1

/-- The byte at an offset. -/
def Memory.read (n : Nat) : Memory → Nat → Byte
  | [], a => Memory.unlisted n a
  | (b, v) :: m, a => if a = b then v else Memory.read n m a

/-- Puts one cell in front, unless it says what an unlisted offset says anyway. -/
def Memory.cons (n a : Nat) (v : Byte) (m : Memory) : Memory :=
  if v = Memory.unlisted n a then m else (a, v) :: m

/-- Stores one byte, keeping the canonical form. -/
def Memory.write (n : Nat) : Memory → Nat → Byte → Memory
  | [], a, v => Memory.cons n a v []
  | (b, w) :: m, a, v =>
    if a < b then Memory.cons n a v ((b, w) :: m)
    else if a = b then Memory.cons n a v m
    else (b, w) :: Memory.write n m a v

/-- Stores bytes at consecutive offsets, the first at `a`. -/
def Memory.store (n : Nat) (m : Memory) (a : Nat) : List Byte → Memory
  | [] => m
  | v :: vs => Memory.store n (Memory.write n m a v) (a + 1) vs

/-- `RECBUF[a]`. -/
def State.recAt (s : State) (a : Nat) : Byte := Memory.read s.env.resets s.recbuf a

/-- `RECBUF[a ..] <- bytes`. -/
def State.recStore (a : Nat) (bytes : List Byte) (s : State) : State :=
  { s with recbuf := Memory.store s.env.resets s.recbuf a bytes }

/-! ## The modulator -/

/-- `inc`: the target shifted left by `TSHIFT` (spec/40_waveform_generator.md R82). -/
def increment (t : Level) : Word := (t.setWidth 32) <<< Config.tshift

/-- Step `k` of R83 on the pair (`acc`, `w`): the 33-bit sum's carry goes to bit `31 - k` of the word (R91). -/
def modStep (inc : Word) (p : Word × Word) (k : Nat) : Word × Word :=
  let sum : BitVec 33 := p.1.setWidth 33 + inc.setWidth 33
  (sum.setWidth 32, if sum.getLsbD 32 then p.2 ||| (1#32 <<< (31 - k)) else p.2)

/-- `gen_word(acc, t)`: the accumulator afterwards and the word (R83). -/
def genWord (acc : Word) (t : Level) : Word × Word :=
  (List.range 32).foldl (modStep (increment t)) (acc, 0)

/-- `feed_attempt()` (R84, R92): the word queued, or none when the queue is full, and the state afterwards. The
full-queue test comes first: a failed feed leaves `ACC` and `Q` as they were. -/
def feedAttempt (s : State) : Option Word × State :=
  let p := genWord s.acc s.target
  (if s.qfull then none else some p.2,
    { s with
      acc := if s.qfull then s.acc else p.1
      output := if s.qfull then s.output else { s.output with q := s.output.q ++ [p.2] } })

/-! ## The serializer -/

/-- `load` (R89): the head of the queue becomes the word in the shift register. -/
def Output.load (o : Output) (w : Word) (rest : List Word) : Output :=
  { o with q := rest, sr := w, srcnt := 32 }

/-- `shift` (R89): bit 31 is driven and recorded. When it was the last bit and no word follows, the output starves at
once and the pin's level is open (R90). A word queued later ends the starvation, but the pin stays undriven until the next
`shift`: the spec opens the level only while nothing is held or queued (spec/93_implementation_defined.md U2) and gives
none for the time from the queueing of that word to its first `shift`, which the model leaves open too. DESIGN CHOICE,
assumption 8. -/
def Output.shift (o : Output) : Output :=
  { o with
    out := o.out ++ [o.sr.getMsbD 0]
    sr := o.sr <<< 1
    srcnt := o.srcnt - 1
    dout := if o.srcnt = 1 ∧ o.q = [] then .undriven else .driven (o.sr.getMsbD 0) }

/-- One serializer step (R89): `load` when it holds no word and the queue does, `shift` when it holds a word, nothing
when it starves (R90). -/
def Output.step (o : Output) : Output :=
  if o.srcnt = 0 then
    match o.q with
    | [] => o
    | w :: rest => o.load w rest
  else o.shift

/-- `k` serializer steps. -/
def Output.run : Nat → Output → Output
  | 0, o => o
  | k + 1, o => Output.run k o.step

/-- Where the serializer's n-th turn stands: the index of the next turn in which it takes a step, and how many turns
come before that one. Every such wait is finite: the serializer is weakly fair (R89). Assumption 2. -/
def turnPhase : Nat → Nat × Nat
  | 0 => (0, Config.idleTurns 0)
  | n + 1 =>
    match turnPhase n with
    | (k, 0) => (k + 1, Config.idleTurns (k + 1))
    | (k, r + 1) => (k, r)

/-- How many steps the serializer takes in its n-th turn: free, "including none" (spec/20_memory.md R49), but not none
for ever (R89). Assumption 2. -/
def freeTurnLength (n : Nat) : Nat :=
  match turnPhase n with
  | (k, 0) => Config.busyStepsPred k + 1
  | (_, _ + 1) => 0

/-- The length of the serializer's next turn: the environment's, or free (spec/20_memory.md R49). Assumption 2. -/
def Env.turnLength (e : Env) : Nat :=
  match e.schedule with
  | k :: _ => k
  | [] => freeTurnLength e.turns

/-- The environment after a serializer turn. -/
def Env.afterTurn (e : Env) : Env :=
  { e with schedule := e.schedule.tail, turns := e.turns + 1 }

/-- A serializer turn: any finite number of its steps, between two steps of the other agents (R49). -/
def serializerTurn (s : State) : State :=
  { s with output := Output.run s.env.turnLength s.output, env := s.env.afterTurn }

/-- The level of `DOUT`: the driven bit, or free while undriven (spec/93_implementation_defined.md U2). The free level is
drawn anew at every serializer turn; between two states with no turn between them (a reset event, a sequencer step that
only moves the position) it stays, which is the model's choice: U2 leaves the bit open at every instant. DESIGN CHOICE,
assumption 8. -/
def State.pinLevel (s : State) : Bool :=
  match s.output.dout with
  | .driven b => b
  | .undriven => Config.pinLevel s.env.turns

/-! ## The converter, the sample and the increment -/

/-- The converter's answer to the `i`-th read from here: the environment's, or free (spec/10_state.md R27).
Assumption 3. -/
def Env.answer (e : Env) (i : Nat) : Half := (e.adc[i]?).getD (Config.adcDraw (e.draws + i))

/-- The environment after a converter read. -/
def Env.afterDraw (e : Env) : Env :=
  { e with adc := e.adc.tail, draws := e.draws + 1 }

/-- `draw_ADC()`. -/
def drawAdc (s : State) : Half × State :=
  (s.env.answer 0, { s with env := s.env.afterDraw })

/-- `sample()` (spec/41_sampler.md R101): one feed attempt, its result ignored, then one converter read; the
serializer may act between them. -/
def sample (s : State) : Half × State :=
  drawAdc (serializerTurn (feedAttempt s).2)

/-- `record(v)` (spec/42_histogram_collector.md R112, R118): one increment modulo 2^32, or a silent discard. -/
def record (v : Half) (s : State) : State :=
  { s with hist := if v.toNat ≤ 4095 then s.hist.setIfInBounds v.toNat (s.histAt v.toNat + 1) else s.hist }

/-! ## Between commands -/

/-- The reset event (spec/70_reset_and_hazards.md R195): every state element takes its reset value, a command in flight
is abandoned. The environment goes on. Assumption 13. -/
def resetEvent (rest : List HostEvent) (s : State) : State :=
  State.resetAt (s.env.resets + 1) { s.env with host := rest }

/-- The start of a host access: it leaves the host's list, and the serializer takes a turn before it (R49). -/
def beginAccess (rest : List HostEvent) (s : State) : State :=
  serializerTurn { s with env := { s.env with host := rest } }

end Sys2Proof.Machine
end

