-- ==== Sys2Proof/Machine/Builder.lean ====
section
/-! DEFINITION. The LUT Builder (spec/43_lut_builder.md), in exact integers (R130). -/

namespace Sys2Proof.Machine

/-- The counters as natural numbers, by raw code. -/
def State.counts (s : State) : List Nat := s.hist.toList.map BitVec.toNat

/-- `cmin`: leading zero counts trimmed (R127). -/
def lowestCode (counts : List Nat) : Nat := counts.findIdx (· ≠ 0)

/-- `cmax`: trailing zero counts trimmed (R127). -/
def highestCode (counts : List Nat) : Nat := 4095 - counts.reverse.findIdx (· ≠ 0)

/-- `r` of R126 and R131: the ideal code less `cmin`, rounded to nearest with ties down. `c` counts the samples of the
codes below, `h` those of this code. -/
def idealIndex (c h n total : Nat) : Nat := ((2 * c + h) * n + total - 1) / (2 * total)

/-- The walk of R126 step 3 (R129): the entries from `code` on, `c` samples having been passed. -/
def walk (cmin n total : Nat) : Nat → Nat → List Nat → List Half
  | _, _, [] => []
  | code, c, h :: hs =>
    BitVec.ofInt 16 ((cmin : Int) + (idealIndex c h n total : Int) - (code : Int))
      :: walk cmin n total (code + 1) (c + h) hs

/-- The table `LUT.BUILD` leaves: 0 below `cmin`, the walk, the last entry repeated above `cmax` (R126, R132). -/
def buildTable (counts : List Nat) : Vector Half 4096 :=
  let cmin := lowestCode counts
  let cmax := highestCode counts
  let n := cmax - cmin + 1
  let inRange := (counts.drop cmin).take n
  let entries := walk cmin n inRange.sum cmin 0 inRange
  tabulate 4096 fun code =>
    if code < cmin then 0 else if code ≤ cmax then entries.getD (code - cmin) 0 else entries.getD (cmax - cmin) 0

/-- `LUT.BUILD` on a histogram that is not empty (R126, R133). -/
def lutBuilt (s : State) : State :=
  State.complete 0
    { s with
      corr := buildTable s.counts
      codeMin := BitVec.ofNat 16 (lowestCode s.counts)
      codeMax := BitVec.ofNat 16 (highestCode s.counts)
      magic := Config.magicValid }

/-- `LUT.BUILD` (R126, R134). -/
def execLutBuild (s : State) : Host.Outcome State Fault Refusal :=
  .next (if s.counts.all (· = 0) then State.raise .emptyHistogram s else lutBuilt s)

end Sys2Proof.Machine
end

