-- ==== Sys2Proof/Machine/Corrector.lean ====
section
/-! DEFINITION. The Runtime Corrector (spec/45_runtime_corrector.md). -/

namespace Sys2Proof.Machine

/-- The corrected code of R150: `clamp(raw + sext(CORR[raw]), 0, 4095)`, zero-extended. -/
def correctedCode (raw : Level) (s : State) : Word :=
  BitVec.ofInt 32 (clamp ((raw.toNat : Int) + s.corrAt raw.toNat) 0 4095)

/-- The result while no valid calibration exists: any value in 0 to 4095 (R151,
spec/93_implementation_defined.md U1). Assumption 9. -/
def uncalibratedResult (s : State) : State :=
  State.complete ((Config.uncalibratedCode s.env.uncal).setWidth 32)
    { s with env := { s.env with uncal := s.env.uncal + 1 } }

/-- `LUT.CORRECT raw` (R150, R151). -/
def execLutCorrect (raw : Level) (s : State) : Host.Outcome State Fault Refusal :=
  .next (if s.valid then State.complete (correctedCode raw s) s else uncalibratedResult s)

end Sys2Proof.Machine
end

