-- ==== Sys2Proof/Machine/Generator.lean ====
section
/-! DEFINITION. The Waveform Generator's commands (spec/40_waveform_generator.md §3). -/

namespace Sys2Proof.Machine

/-- `WG.INIT` (R81). With no word held or queued the pin is undriven (assumption 8). -/
def execWgInit (s : State) : Host.Outcome State Fault Refusal :=
  .next (State.complete 0
    { s with acc := 0, target := 0, output := { s.output with q := [], srcnt := 0, dout := .undriven } })

/-- `WG.SETT level` (R85). -/
def execWgSett (level : Level) (s : State) : Host.Outcome State Fault Refusal :=
  .next (State.complete 0 { s with target := level })

/-- What `WG.FEED` makes of a feed attempt's outcome (R86). -/
def feedOutcome : Option Word × State → State
  | (some w, s) => State.complete w s
  | (none, s) => State.raise .queueFull s

/-- `WG.FEED` (R86). -/
def execWgFeed (s : State) : Host.Outcome State Fault Refusal :=
  .next (feedOutcome (feedAttempt s))

end Sys2Proof.Machine
end

