-- ==== Sys2Proof/Machine/Sequencer.lean ====
section
/-! DEFINITION. The sequencer `SEQ` (spec/10_state.md R25): the steps of the two commands that are in flight over many
micro-steps, `SMP.AVG` (spec/41_sampler.md R103) and `HST.COLLECT` (spec/42_histogram_collector.md R114). Before each
micro-step the serializer may act (spec/20_memory.md R49). Assumptions 1 and 14. -/

namespace Sys2Proof.Machine

/-- The level of visit `j` of a pass: even passes ascend, odd passes descend (R115). -/
def visitLevel (pass j : Nat) : Level :=
  BitVec.ofNat 12 (if pass % 2 = 0 then j else 4095 - j)

/-- The pass and level after a visit, none after the last visit of the last pass. -/
def nextVisit (ns pass : Nat) (level : Level) : Option (Nat × Level) :=
  if level = visitLevel pass 4095 then
    if pass + 1 < ns then some (pass + 1, visitLevel (pass + 1) 0) else none
  else some (pass, if pass % 2 = 0 then level + 1 else level - 1)

/-- A level visit begins: `TARGET <- level` (R114). -/
def enterVisit (ns spl st pass : Nat) (level : Level) (s : State) : State :=
  { s with target := level, seq := .collect ns spl st pass level (.settle 0) }

/-- The run ends: `TARGET <- 0`, `RESULT <- 0`, success (R114). -/
def finishCollect (s : State) : State :=
  State.complete 0 { s with target := 0, seq := .idle }

/-- After a visit: the next one, or the end of the run. -/
def leaveVisit (ns spl st pass : Nat) (level : Level) (s : State) : State :=
  match nextVisit ns pass level with
  | some (pass', level') => enterVisit ns spl st pass' level' s
  | none => finishCollect s

/-- One settle tick: a feed attempt (R116). -/
def settleTick (s : State) : State := (feedAttempt (serializerTurn s)).2

/-- One sample of a visit: `s <- sample()`, `record(s)` (R114). -/
def collectSample (s : State) : State :=
  let p := sample (serializerTurn s)
  record p.1 (serializerTurn p.2)

/-- The start of `HST.COLLECT`: the configuration is latched and the histogram cleared (R114). -/
def startCollect (s : State) : State :=
  let s' := { s with hist := Vector.replicate 4096 0 }
  if s.numSweeps.toNat = 0 then finishCollect s'
  else enterVisit s.numSweeps.toNat s.samplesPerLevel.toNat s.settleTicks.toNat 0 (visitLevel 0 0) s'

/-- The end of `SMP.AVG n` (R103). -/
def finishAvg (n sum : Nat) (s : State) : State :=
  State.complete (BitVec.ofNat 32 (roundedMean sum n)) { s with seq := .idle }

/-- One sample of `SMP.AVG n` (R103). -/
def avgSample (n sum count : Nat) (s : State) : State :=
  let p := sample (serializerTurn s)
  { p.2 with seq := .avg n (sum + p.1.toNat) (count + 1) }

/-- One step of the sequencer. -/
def seqStep (s : State) : State :=
  match s.seq with
  | .idle => s
  | .collect ns spl st pass level (.settle t) =>
    if t < st then { settleTick s with seq := .collect ns spl st pass level (.settle (t + 1)) }
    else { s with seq := .collect ns spl st pass level (.sample 0) }
  | .collect ns spl st pass level (.sample k) =>
    if k < spl then { collectSample s with seq := .collect ns spl st pass level (.sample (k + 1)) }
    else leaveVisit ns spl st pass level s
  | .avg n sum count =>
    if count < n then avgSample n sum count s else finishAvg n sum s

/-- `k` steps of the sequencer. -/
def seqRun : Nat → State → State
  | 0, s => s
  | k + 1, s => seqRun k (seqStep s)

/-- How many sequencer steps a run of `HST.COLLECT` takes: for each visit its feed attempts, its samples and two steps
that only move the position. -/
def collectSteps (s : State) : Nat :=
  s.numSweeps.toNat * (4096 * (s.settleTicks.toNat + s.samplesPerLevel.toNat + 2))

/-- A step of the machine while the host does nothing or is held off: a sequencer step of the command in flight
(spec/20_memory.md R47), or, while the engine is idle, a serializer turn (spec/60_exceptions.md R187). -/
def engineTurn (s : State) : State :=
  match s.seq with
  | .idle => serializerTurn s
  | .collect .. | .avg .. => seqStep s

/-- Whether no command is in flight. -/
def State.isIdle (s : State) : Bool :=
  match s.seq with
  | .idle => true
  | .collect .. | .avg .. => false

end Sys2Proof.Machine
end

