-- ==== Sys2Proof/Machine/Histogram.lean ====
section
/-! DEFINITION. The Histogram Collector's commands (spec/42_histogram_collector.md §3). -/

namespace Sys2Proof.Machine

/-- `HST.CLR` (R111). -/
def execHstClr (s : State) : Host.Outcome State Fault Refusal :=
  .next (State.complete 0 { s with hist := Vector.replicate 4096 0 })

/-- `HST.REC code` (R113). -/
def execHstRec (code : Half) (s : State) : Host.Outcome State Fault Refusal :=
  .next (State.complete 0 (record code s))

/-- `HST.COLLECT` (R114): the sequencer runs the whole collection. -/
def execHstCollect (s : State) : Host.Outcome State Fault Refusal :=
  .next (seqRun (collectSteps s) (startCollect s))

end Sys2Proof.Machine
end

