-- ==== Sys2Proof/Machine/Record.lean ====
section
/-! DEFINITION. The Calibration Record and its two commands (spec/46_calibration_record.md). -/

namespace Sys2Proof.Machine

/-- The byte image of the record (R155): magic, table, range, in that order, each little-endian, no padding. -/
def recordBytes (s : State) : List Byte :=
  le32 s.magic ++ s.corr.toList.flatMap le16 ++ le16 s.codeMin ++ le16 s.codeMax

/-- The half-word of `RECBUF` at an offset. -/
def State.recHalf (s : State) (a : Nat) : Half := ofLe16 (s.recAt a) (s.recAt (a + 1))

/-- The word of `RECBUF` at an offset. -/
def State.recWord (s : State) (a : Nat) : Word :=
  ofLe32 (s.recAt a) (s.recAt (a + 1)) (s.recAt (a + 2)) (s.recAt (a + 3))

/-- `REC.STORE` (R156): all 8200 bytes are overwritten, whatever `MAGIC` is. -/
def execRecStore (s : State) : Host.Outcome State Fault Refusal :=
  .next (State.complete (BitVec.ofNat 32 Config.recSize) (State.recStore 0 (recordBytes s) s))

/-- The validity test of a load (R158): the read size is the record size and the magic matches. -/
def loadValid (size : Half) (s : State) : Bool :=
  size.toNat == Config.recSize && s.recWord 0 == Config.magicValid

/-- A valid load (R157): the record in `RECBUF` becomes the active calibration. -/
def recLoaded (s : State) : State :=
  State.complete 0
    { s with
      corr := tabulate 4096 fun i => s.recHalf (4 + 2 * i)
      codeMin := s.recHalf 8196
      codeMax := s.recHalf 8198
      magic := Config.magicValid }

/-- `REC.LOAD size` (R157, R158). -/
def execRecLoad (size : Half) (s : State) : Host.Outcome State Fault Refusal :=
  .next (if loadValid size s then recLoaded s else State.raise .dataInvalid s)

end Sys2Proof.Machine
end

