-- ==== Sys2Proof/Machine/Sampler.lean ====
section
/-! DEFINITION. The Sampler's commands (spec/41_sampler.md §2). -/

namespace Sys2Proof.Machine

/-- `SMP.RAW` (R102): the sample is returned unchanged. Assumption 15. -/
def execSmpRaw (s : State) : Host.Outcome State Fault Refusal :=
  let p := sample s
  .next (State.complete (p.1.setWidth 32) p.2)

/-- `SMP.AVG n` (R103): the sequencer takes `n` samples, then divides. The reserved `n` = 0 raises `ILLEGAL_COMMAND`. -/
def execSmpAvg (n : Half) (s : State) : Host.Outcome State Fault Refusal :=
  .next
    (if n = 0 then State.raise .illegalCommand s
     else seqRun (n.toNat + 1) { s with seq := .avg n.toNat 0 0 })

end Sys2Proof.Machine
end

