-- ==== Sys2Proof/Machine/Smoother.lean ====
section
/-! DEFINITION. The Boundary Smoother (spec/44_boundary_smoother.md). -/

namespace Sys2Proof.Machine

/-- The value of entry `L + k` between anchors `aL` and `aR` (R143): `aL + ((k × d + 15) div 32)`. -/
def interpolate (aL aR : Int) (k : Nat) : Int := aL + ((k : Int) * (aR - aL) + 15) / 32

/-- One boundary (R141): the entries strictly between the anchors are interpolated, every other entry stays. Both
anchors are those of the table before any write (R144). -/
def smoothBoundary (t : Vector Half 4096) (b : Nat) : Vector Half 4096 :=
  let left := b - Config.radius
  let right := b + Config.radius
  let aL := entryAt t left
  let aR := entryAt t right
  tabulate 4096 fun i =>
    if left < i ∧ i < right then BitVec.ofInt 16 (interpolate aL aR (i - left)) else t.getD i 0

/-- The four boundaries, one after another (R141, R145). -/
def smoothTable (t : Vector Half 4096) : Vector Half 4096 :=
  Config.boundaries.foldl smoothBoundary t

/-- `LUT.SMOOTH` (R141, R147). -/
def execLutSmooth (s : State) : Host.Outcome State Fault Refusal :=
  .next (State.complete 0 { s with corr := smoothTable s.corr })

end Sys2Proof.Machine
end

