-- ==== Sys2Proof/Machine/Dispatch.lean ====
section
/-! DEFINITION. The meaning of each command, one arm per constructor (spec/30_encoding.md R63). -/

namespace Sys2Proof.Machine

def exec (i : Instr) (s : State) : Host.Outcome State Fault Refusal :=
  match i with
  | .wgInit => Sys2Proof.Machine.execWgInit s
  | .wgSett level => Sys2Proof.Machine.execWgSett level s
  | .wgFeed => Sys2Proof.Machine.execWgFeed s
  | .smpRaw => Sys2Proof.Machine.execSmpRaw s
  | .smpAvg n => Sys2Proof.Machine.execSmpAvg n s
  | .hstClr => Sys2Proof.Machine.execHstClr s
  | .hstRec code => Sys2Proof.Machine.execHstRec code s
  | .hstCollect => Sys2Proof.Machine.execHstCollect s
  | .lutBuild => Sys2Proof.Machine.execLutBuild s
  | .lutSmooth => Sys2Proof.Machine.execLutSmooth s
  | .lutCorrect raw => Sys2Proof.Machine.execLutCorrect raw s
  | .recStore => Sys2Proof.Machine.execRecStore s
  | .recLoad size => Sys2Proof.Machine.execRecLoad size s

end Sys2Proof.Machine
end

