-- ==== Sys2Proof/Machine/HostPort.lean ====
section
/-! DEFINITION. The host's view of the block: the register map (spec/10_state.md R34), the windows
(spec/20_memory.md R41), the legal accesses (R43, R44) and what each does (R45). -/

namespace Sys2Proof.Machine

/-- The 12 registers of R34. -/
inductive Reg where
  | cmd | status | result | target | acc | qlevel | numSweeps | samplesPerLevel | settleTicks
  | codeMin | codeMax | magic
  deriving DecidableEq, Repr

/-- The offset of a register (R34). -/
def Reg.offset : Reg → Nat
  | .cmd => 0x000
  | .status => 0x004
  | .result => 0x008
  | .target => 0x00C
  | .acc => 0x010
  | .qlevel => 0x014
  | .numSweeps => 0x018
  | .samplesPerLevel => 0x01C
  | .settleTicks => 0x020
  | .codeMin => 0x024
  | .codeMax => 0x028
  | .magic => 0x02C

/-- The registers in the order of the map. -/
def registers : List Reg :=
  [.cmd, .status, .result, .target, .acc, .qlevel, .numSweeps, .samplesPerLevel, .settleTicks, .codeMin, .codeMax,
    .magic]

/-- What a legal access reaches. -/
inductive Loc where
  | reg (r : Reg)
  /-- `HIST[i]` as a word. -/
  | hist (i : Nat)
  /-- `CORR[i]` as a half-word. -/
  | corr (i : Nat)
  /-- `CORR[i]` in bits 15:0 and `CORR[i + 1]` in bits 31:16. -/
  | corrPair (i : Nat)
  /-- `bytes` bytes of `RECBUF` from offset `a` of the record. -/
  | recbuf (a bytes : Nat)
  deriving DecidableEq, Repr

/-- An access inside the register file: 32-bit, offset a multiple of 4 (R43). -/
def locateReg (off bytes : Nat) : Except Refusal Loc :=
  match registers.find? (fun r => r.offset == off && bytes == 4) with
  | some r => .ok (.reg r)
  | none => .error (.illSizedAccess off bytes)

/-- An access inside the `HIST` window: 32-bit, offset a multiple of 4 (R43). -/
def locateHist (off bytes : Nat) : Except Refusal Loc :=
  if bytes = 4 ∧ off % 4 = 0 then .ok (.hist ((off - 0x4000) / 4)) else .error (.illSizedAccess off bytes)

/-- An access inside the `CORR` window: 16-bit, or 32-bit for a pair of entries, naturally aligned (R43). -/
def locateCorr (off bytes : Nat) : Except Refusal Loc :=
  if bytes = 2 ∧ off % 2 = 0 then .ok (.corr ((off - 0x8000) / 2))
  else if bytes = 4 ∧ off % 4 = 0 then .ok (.corrPair ((off - 0x8000) / 2))
  else .error (.illSizedAccess off bytes)

/-- An access inside the `RECBUF` window: 8-, 16- or 32-bit, naturally aligned, wholly inside (R43). -/
def locateRecbuf (off bytes : Nat) : Except Refusal Loc :=
  if (bytes = 1 ∨ bytes = 2 ∨ bytes = 4) ∧ off % bytes = 0 ∧ off + bytes ≤ 0xC008 then .ok (.recbuf (off - 0xA000) bytes)
  else .error (.illSizedAccess off bytes)

/-- The address map (R34, R41) with the access table (R43); everything else is refused by name (R44). Assumption 11. -/
def locate (offset : BitVec 16) (bytes : Nat) : Except Refusal Loc :=
  let off := offset.toNat
  if off < 0x30 then locateReg off bytes
  else if off < 0x4000 then .error (.reservedOffset off)
  else if off < 0x8000 then locateHist off bytes
  else if off < 0xA000 then locateCorr off bytes
  else if off < 0xC008 then locateRecbuf off bytes
  else .error (.reservedOffset off)

/-- What a read of a register returns (R34); `CMD` reads 0. The spec bounds neither `QDEPTH` nor `Qlen` and does not say
what the 32-bit `QLEVEL` reads when `Qlen` is 2^32 or more; the model leaves that value free, one for each `Qlen`, so that
reading again returns it again until the queue changes (spec/20_memory.md R45). DESIGN CHOICE, assumption 21. -/
def readReg (s : State) : Reg → Word
  | .cmd => 0
  | .status => s.statusWord
  | .result => s.result
  | .target => s.target.setWidth 32
  | .acc => s.acc
  | .qlevel =>
    if s.output.q.length < 2 ^ 32 then BitVec.ofNat 32 s.output.q.length
    else Config.overlongQlevel s.output.q.length
  | .numSweeps => s.numSweeps.setWidth 32
  | .samplesPerLevel => s.samplesPerLevel.setWidth 32
  | .settleTicks => s.settleTicks
  | .codeMin => s.codeMin.setWidth 32
  | .codeMax => s.codeMax.setWidth 32
  | .magic => s.magic

/-- The value of `bytes` bytes of `RECBUF` from `a`, little-endian (spec/20_memory.md R42), zero-extended. -/
def readRec (s : State) (a : Nat) : Nat → Word
  | 1 => (s.recAt a).setWidth 32
  | 2 => (s.recHalf a).setWidth 32
  | _ => s.recWord a

/-- What a legal read returns (R41, R43). -/
def readLoc (s : State) : Loc → Word
  | .reg r => readReg s r
  | .hist i => s.histAt i
  | .corr i => (s.corr.getD i 0).setWidth 32
  | .corrPair i => s.corr.getD (i + 1) 0 ++ s.corr.getD i 0
  | .recbuf a bytes => readRec s a bytes

/-- A write to a register other than `CMD` (R21 to R24, R34): a write-1-to-clear of `ILL`, the three configuration
registers, and read-only registers that ignore it. -/
def writeReg (v : Word) (s : State) : Reg → State
  | .status => if v.getLsbD 4 then s.clearIll else s
  | .numSweeps => { s with numSweeps := v.setWidth 8 }
  | .samplesPerLevel => { s with samplesPerLevel := v.setWidth 16 }
  | .settleTicks => { s with settleTicks := v }
  | .cmd | .result | .target | .acc | .qlevel | .codeMin | .codeMax | .magic => s

/-- What a legal write does (R41, R45): the `HIST` and `CORR` windows ignore it. Assumption 11. -/
def writeLoc (v : Word) (s : State) : Loc → State
  | .reg r => writeReg v s r
  | .hist _ | .corr _ | .corrPair _ => s
  | .recbuf a bytes => State.recStore a ((le32 v).take bytes) s

/-- `MemRead(base + offset, bytes)`: the value goes to the host (assumption 12). -/
def hostRead (offset : BitVec 16) (bytes : Nat) (s : State) : Host.Outcome State Fault Refusal :=
  match locate offset bytes with
  | .ok loc => .next { s with env := { s.env with rdata := readLoc s loc } }
  | .error r => .refused r

/-- `MemWrite(base + offset, bytes, value)`, of anything but a command. -/
def hostWrite (offset : BitVec 16) (bytes : Nat) (v : Word) (s : State) : Host.Outcome State Fault Refusal :=
  match locate offset bytes with
  | .ok loc => .next (writeLoc v s loc)
  | .error r => .refused r

/-- Whether a write delivers a command word: 32 bits to `CMD` (spec/30_encoding.md R60). -/
def isCommand (offset : BitVec 16) (bytes : Nat) : Bool := offset == 0 && bytes == 4

/-- The directive `WR <register>, <value>` (R66). -/
def wr (r : Reg) (v : Word) : HostEvent := .write (BitVec.ofNat 16 r.offset) 4 v

/-- The directive `RD <register>` (R66). -/
def rd (r : Reg) : HostEvent := .read (BitVec.ofNat 16 r.offset) 4

end Sys2Proof.Machine
end

