-- ==== Sys2Proof/Machine/Step.lean ====
section
/-! DEFINITION. One step of the machine. The block fetches nothing (spec/10_state.md R30): its commands are the words the
host writes to `CMD`, executed one at a time, each to completion, in the order written (spec/20_memory.md R48).
Assumptions 1, 10 and 13. -/

namespace Sys2Proof.Machine

/-- A word written to `CMD`: decoded and executed once, at the moment of the write (spec/30_encoding.md R60, R64). -/
def runCommand (w : Word) (s : State) : Host.Outcome State Fault Refusal :=
  match decode w with
  | .ok i => exec i s
  | .error _ => .next (State.raise .illegalCommand s)

/-- One step: the reset input at once (spec/70_reset_and_hazards.md R195); else, while a command is in flight, a step of
it, the host being held off (R47); else the host's next access; else, with no access to come, a serializer turn. -/
def step (s : State) : Host.Outcome State Fault Refusal :=
  match s.env.host with
  | .reset :: rest => .next (resetEvent rest s)
  | .read offset bytes :: rest =>
    if s.isIdle then hostRead offset bytes (beginAccess rest s) else .next (engineTurn s)
  | .write offset bytes v :: rest =>
    if s.isIdle then
      if isCommand offset bytes then runCommand v (beginAccess rest s) else hostWrite offset bytes v (beginAccess rest s)
    else .next (engineTurn s)
  | [] => .next (engineTurn s)

/-- The state in which the host's next access writes the command word `w` (its low `nbits` bits, zeros above) and no
command is in flight, so that the next step runs it. Assumption 10. -/
def State.withFetchWord (s : State) (nbits w : Nat) : State :=
  { s with
    seq := .idle
    env := { s.env with host := .write 0 4 (BitVec.ofNat 32 (w % 2 ^ nbits)) :: s.env.host } }

end Sys2Proof.Machine
end

