-- ==== Sys2Proof/Safety.lean ====
section
/-! DEFINITION. The terms the statements use: the invariant of the machine, the bit stream of the output path, words
generated at a constant level, the loops of spec/42_histogram_collector.md R114, and what a step is about to do. -/

namespace Sys2Proof.Machine

/-! ## The bit stream (spec/20_memory.md R50) -/

/-- The 32 bits of a word in the order the serializer drives them (spec/40_waveform_generator.md R91). -/
def wordBits (w : Word) : List Bool := (List.range 32).map fun k => w.getMsbD k

/-- The bits of the word in the shift register that are still to be driven. -/
def Output.held (o : Output) : List Bool := (List.range o.srcnt).map fun k => o.sr.getMsbD k

/-- The bits that are still to be driven, in order. -/
def Output.pending (o : Output) : List Bool := o.held ++ o.q.flatMap wordBits

/-- The bits driven so far, then those still to be driven. -/
def Output.stream (o : Output) : List Bool := o.out ++ o.pending

/-! ## The invariant -/

/-- The sequencer's position is inside its loops (spec/10_state.md R25), and the running sum is the sum of that many
samples (spec/41_sampler.md R104). -/
def Seq.Ok (target : Level) : Seq → Prop
  | .idle => True
  | .collect ns spl st pass level phase =>
    ns ≤ 255 ∧ spl ≤ 65535 ∧ st < 2 ^ 32 ∧ pass < ns ∧ target = level ∧
      match phase with
      | .settle tick => tick ≤ st
      | .sample count => count ≤ spl
  | .avg n sum count => 0 < n ∧ n ≤ 65535 ∧ count ≤ n ∧ sum ≤ count * 65535

/-- What holds of every state of a run. -/
structure State.Inv (s : State) : Prop where
  /-- `ACC[19:0] = 0` (spec/10_state.md R12). -/
  accLow : s.acc.extractLsb' 0 20 = 0#20
  /-- `Qlen` is 0 to `QDEPTH` (R13). -/
  queueFits : s.output.q.length ≤ Config.qdepth
  /-- `SRCNT` is 0 to 32 (R14). -/
  srcntFits : s.output.srcnt ≤ 32
  /-- While the output starves nothing drives the pin (R28; assumption 8). -/
  starvedUndriven : s.output.srcnt = 0 → s.output.q = [] → s.output.dout = .undriven
  /-- `MAGIC` is 0 or the sentinel: no rule writes another value (R18). -/
  magicKnown : s.magic = 0#32 ∨ s.magic = Config.magicValid
  /-- `CAUSE` is 0 when `OK` is 1 (R21). -/
  okNoCause : s.status.ok = true → s.status.cause = .none
  /-- The sequencer is inside its loops. -/
  seqOk : s.seq.Ok s.target
  /-- The record buffer's memory is in canonical form (assumption 6). -/
  recbufWf : Memory.wf s.env.resets s.recbuf

/-! ## Words at a constant level -/

/-- `n` words generated one after another at the level `t` from the accumulator `acc`, and the accumulator afterwards
(spec/40_waveform_generator.md R83). -/
def modWords (t : Level) : Nat → Word → List Word × Word
  | 0, acc => ([], acc)
  | n + 1, acc =>
    let p := genWord acc t
    let rest := modWords t n p.1
    (p.2 :: rest.1, rest.2)

/-- The number of set bits of a list of words. -/
def ones (ws : List Word) : Nat := (ws.flatMap wordBits).count true

/-! ## The loops of `HST.COLLECT` as the spec writes them -/

/-- `n` times `f`. -/
def times (f : State → State) : Nat → State → State
  | 0, s => s
  | n + 1, s => times f n (f s)

/-- The body of R114 for one level: set the target, settle, sample. -/
def visit (spl st : Nat) (level : Level) (s : State) : State :=
  times collectSample spl (times settleTick st { s with target := level })

/-- One sweep pass of R115: ascending when even, descending when odd. -/
def sweep (spl st pass : Nat) (s : State) : State :=
  (List.range 4096).foldl
    (fun s j => visit spl st (BitVec.ofNat 12 (if pass % 2 = 0 then j else 4095 - j)) s) s

/-- The pseudocode of R114. -/
def collectLoop (s : State) : State :=
  let swept :=
    (List.range s.numSweeps.toNat).foldl
      (fun s' pass => sweep s.samplesPerLevel.toNat s.settleTicks.toNat pass s')
      { s with hist := Vector.replicate 4096 0 }
  { swept with
    target := 0, result := 0, status := { swept.status with ok := true, cause := .none }, seq := .idle }

/-- The generator and the converter after `n` samples of `SMP.AVG` (spec/41_sampler.md R103). -/
def averageLoop (n : Nat) (s : State) : State := times (fun s => (sample (serializerTurn s)).2) n s

/-- How many samples a collection takes (spec/42_histogram_collector.md R117). -/
def collectSamples (s : State) : Nat := s.numSweeps.toNat * 4096 * s.samplesPerLevel.toNat

/-- The level at which sample `i` of a collection is taken (R114, R115): the visit is `i` over the samples per level. -/
def sampleLevel (spl i : Nat) : Nat :=
  if (i / spl / 4096) % 2 = 0 then i / spl % 4096 else 4095 - i / spl % 4096

/-! ## What a step is about to do -/

/-- The next step is the reset event. -/
def State.resetNext (s : State) : Bool :=
  match s.env.host with
  | .reset :: _ => true
  | _ => false

/-- The command the next step runs, if it runs one. -/
def State.nextCommand (s : State) : Option Instr :=
  match s.env.host with
  | .write offset bytes w :: _ =>
    if s.isIdle && isCommand offset bytes then
      match decode w with
      | .ok i => some i
      | .error _ => none
    else none
  | _ => none

/-- The accesses spec/20_memory.md R43 lists. -/
def legalAccess (off bytes : Nat) : Prop :=
  (off < 0x30 ∧ bytes = 4 ∧ off % 4 = 0) ∨
  (0x4000 ≤ off ∧ off < 0x8000 ∧ bytes = 4 ∧ off % 4 = 0) ∨
  (0x8000 ≤ off ∧ off < 0xA000 ∧ (bytes = 2 ∧ off % 2 = 0 ∨ bytes = 4 ∧ off % 4 = 0)) ∨
  (0xA000 ≤ off ∧ (bytes = 1 ∨ bytes = 2 ∨ bytes = 4) ∧ off % bytes = 0 ∧ off + bytes ≤ 0xC008)

end Sys2Proof.Machine
end

