-- ==== Sys2Proof/Certificates/Slice0/Obligations.lean ====
section
/-! DEFINITION. The statements for the provers. Each docstring names the rule of spec/ it formalises, or the model's
choice (with its log entry) it rests on. `serializerTurn` before an access is the free serializer turn of log 2. -/

open Sys2Proof Sys2Proof.Machine

/-! ## Encoding -/

/-- Words of every command family, written out from the encodings of spec/30_encoding.md R63 and R66. -/
def Obligations.SpecWordsDecodeToTheirCommands : Prop :=
  decode 0x01000000#32 = .ok .wgInit ∧ decode 0x02000800#32 = .ok (.wgSett 2048#12) ∧
  decode 0x11000010#32 = .ok (.smpAvg 16#16) ∧ decode 0x21001234#32 = .ok (.hstRec 0x1234#16) ∧
  decode 0x30000000#32 = .ok .lutBuild ∧ decode 0x31000000#32 = .ok .lutSmooth ∧
  decode 0x320007D2#32 = .ok (.lutCorrect 2002#12) ∧ decode 0x41002008#32 = .ok (.recLoad 8200#16)

/-- Decode and encode agree for every command and every operand its format admits, also from the bytes of the word
(R60 to R63, spec/20_memory.md R42). -/
def Obligations.DecodeOfEncodeIsTheCommand : Prop :=
  ∀ (i : Instr) (rest : List Byte), i.wellFormed = true →
    decode (encode i) = .ok i ∧ decodeBytes (le32 (encode i) ++ rest) = .ok (i, rest)

/-- A word that decodes is the encoding of the command it decodes to, and that command is well-formed: no bit is
dropped (R60, R61). -/
def Obligations.EncodeOfDecodeIsTheWord : Prop :=
  ∀ (w : Word) (i : Instr), decode w = .ok i → i.wellFormed = true ∧ encode i = w

/-- R63: a word decodes to the command of a row exactly when the row selects it, and no two rows select one word. -/
def Obligations.WordDecodesToTheRowThatSelectsIt : Prop :=
  ∀ w : Word,
    (∀ r ∈ table, r.selects w = true ↔ ∃ i, decode w = .ok i ∧ i.mnemonic = r.mnemonic) ∧
    (∀ r ∈ table, ∀ r' ∈ table, r.selects w = true → r'.selects w = true → r = r')

/-- R64: a word is reserved exactly when its `op` is not one of the 13, or `rsv` ≠ 0, or a Z operand is not 0, or an L12
operand has `arg[15:12]` ≠ 0, or it is `SMP.AVG 0`; and a host that writes one to `CMD` gets `ILLEGAL_COMMAND` and
nothing else (the serializer's turn before the write apart). -/
def Obligations.ReservedWordRaisesIllegalCommand : Prop :=
  (∀ w : Word, (∀ r ∈ table, r.selects w = false) ↔
    (opOf w ∉ [0x01#8, 0x02#8, 0x03#8, 0x10#8, 0x11#8, 0x20#8, 0x21#8, 0x22#8, 0x30#8, 0x31#8, 0x32#8, 0x40#8, 0x41#8] ∨
      rsvOf w ≠ 0 ∨
      (opOf w ∈ [0x01#8, 0x03#8, 0x10#8, 0x20#8, 0x22#8, 0x30#8, 0x31#8, 0x40#8] ∧ argOf w ≠ 0) ∨
      (opOf w ∈ [0x02#8, 0x32#8] ∧ (argOf w).extractLsb' 12 4 ≠ 0) ∨
      (opOf w = 0x11#8 ∧ argOf w = 0))) ∧
  (∀ (s : State) (rest : List HostEvent) (w : Word), s.seq = .idle → s.env.host = .write 0 4 w :: rest →
    (∀ r ∈ table, r.selects w = false) →
    ∃ u, u = serializerTurn { s with env := { s.env with host := rest } } ∧
      step s = .next { u with result := 0, status := { ok := false, ill := true, cause := .illegalCommand } })

/-! ## Steps -/

/-- A step runs the decoded command: the word leaves the host's list, the serializer takes its turn, and the command's
meaning is applied. It is executed once, and `withFetchWord` places it (R48, R53, R60; log 10). -/
def Obligations.StepRunsTheDecodedCommand : Prop :=
  (∀ (s : State) (rest : List HostEvent) (w : Word) (i : Instr),
    s.seq = .idle → s.env.host = .write 0 4 w :: rest → decode w = .ok i →
    step s = exec i (serializerTurn { s with env := { s.env with host := rest } })) ∧
  (∀ (s : State) (i : Instr), i.wellFormed = true →
    step (s.withFetchWord 32 (encode i).toNat) = exec i (serializerTurn { s with seq := .idle }))

/-- With the engine idle, a read and a write that is no command are performed after the serializer's turn (R46, R49),
and that turn changes nothing but the output path, the turn counter and the fixed turn lengths (log 2). -/
def Obligations.StepPerformsTheHostAccess : Prop :=
  (∀ s : State, ∃ k, serializerTurn s =
    { s with output := Output.run k s.output,
             env := { s.env with schedule := s.env.schedule.tail, turns := s.env.turns + 1 } }) ∧
  ∀ (s : State) (rest : List HostEvent) (off : BitVec 16) (n : Nat) (v : Word), s.seq = .idle →
    (s.env.host = .read off n :: rest →
      step s = hostRead off n (serializerTurn { s with env := { s.env with host := rest } })) ∧
    (s.env.host = .write off n v :: rest → ¬ (off = 0 ∧ n = 4) →
      step s = hostWrite off n v (serializerTurn { s with env := { s.env with host := rest } }))

/-- R47: while a command is in flight no host access is accepted; the step is one of the command's own. -/
def Obligations.HostIsHeldOffWhileACommandRuns : Prop :=
  ∀ s : State, s.seq ≠ .idle → s.resetNext = false →
    ∃ t, step s = .next t ∧ t = seqStep s ∧ t.env.host = s.env.host ∧ t.env.rdata = s.env.rdata

/-- A step that begins with the engine idle, if it answers a next state, ends with the engine idle. That one step takes a
command from its start to its end is the model's choice of granularity (log 1, DESIGN CHOICE): spec/10_state.md R25 also
allows a model whose steps are the micro-steps. -/
def Obligations.StepFromIdleEndsIdle : Prop :=
  ∀ s t : State, s.seq = .idle → step s = .next t → t.seq = .idle

/-- A command in flight is the run of its micro-steps: the machine's own steps, taken from the state in which
`HST.COLLECT` or `SMP.AVG n` has just started, end in the state `exec` answers (spec/10_state.md R25; log 1). -/
def Obligations.CommandIsTheRunOfItsMicroSteps : Prop :=
  ∀ s : State, s.resetNext = false →
    core.run (collectSteps s) (startCollect s) = exec .hstCollect s ∧
    ∀ n : Half, n ≠ 0 →
      core.run (n.toNat + 1) { s with seq := .avg n.toNat 0 0 } = exec (.smpAvg n) s

/-- R187: an idle engine with no access to come only lets the serializer drain the queue: nothing but the output path
and the turn bookkeeping changes, and no bit is lost. R89's weak fairness: however many turns have passed, one with a
step is still to come, so that an idle engine's queue does drain and every bit is driven. That the serializer acts in
turns is the model's choice (log 2). -/
def Obligations.IdleEngineOnlyDrainsTheQueue : Prop :=
  (∀ s : State, s.seq = .idle → s.env.host = [] →
    ∃ t, step s = .next t ∧
      t = { s with output := t.output,
                   env := { s.env with schedule := s.env.schedule.tail, turns := s.env.turns + 1 } } ∧
      t.output.stream = s.output.stream) ∧
  (∀ (s : State) (n : Nat), ∃ m, n ≤ m ∧
    (times serializerTurn (m + 1) s).output =
      Output.run (times serializerTurn m s).env.turnLength (times serializerTurn m s).output ∧
    0 < (times serializerTurn m s).env.turnLength) ∧
  ∀ s : State, s.seq = .idle → s.env.host = [] →
    ∃ k t, core.run k s = .next t ∧
      t = { s with output := t.output, env := { s.env with schedule := t.env.schedule, turns := t.env.turns } } ∧
      t.output.q = [] ∧ t.output.srcnt = 0 ∧ t.output.out = s.output.stream

/-! ## Reset -/

/-- R196: every state element the spec gives a reset value has it. -/
def Obligations.ResetStateIsTheTableOfR196 : Prop :=
  let s := State.reset
  s.target = 0 ∧ s.acc = 0 ∧ s.output.q = [] ∧ s.output.srcnt = 0 ∧ s.output.out = [] ∧
  (∀ i, i < 4096 → s.histAt i = 0) ∧ (∀ i, i < 4096 → s.corrAt i = 0) ∧
  s.codeMin = 0 ∧ s.codeMax = 4095 ∧ s.magic = 0 ∧ s.result = 0 ∧
  s.status = { ok := false, ill := false, cause := .none } ∧ s.statusWord = 0x00000008#32 ∧
  s.numSweeps = 4 ∧ s.samplesPerLevel = 128 ∧ s.settleTicks = Config.settleTicksReset ∧ s.seq = .idle

/-- R195: the reset input, at any time and also during a command, puts every state element at its reset value; `SR` and
`RECBUF` take this reset's free values (logs 6, 7 and 13). -/
def Obligations.ResetEventRestoresTheResetState : Prop :=
  ∀ (s : State) (rest : List HostEvent), s.env.host = .reset :: rest →
    ∃ t, step s = .next t ∧
      t = { State.reset with output := { State.reset.output with sr := t.output.sr }, env := t.env } ∧
      t.env = { s.env with host := rest, resets := s.env.resets + 1 }

/-! ## The serializer and the bit stream -/

/-- R89, R90: `load`, `shift` and starvation. The pin holds the bit driven unless the output starves at once, when its
level is open (log 8). -/
def Obligations.SerializerLoadsShiftsOrStarves : Prop :=
  ∀ o : Output,
    (∀ w rest, o.srcnt = 0 → o.q = w :: rest → o.step = { o with q := rest, sr := w, srcnt := 32 }) ∧
    (0 < o.srcnt →
      o.step.out = o.out ++ [o.sr.getLsbD 31] ∧ o.step.sr = o.sr * 2 ∧ o.step.srcnt = o.srcnt - 1 ∧ o.step.q = o.q ∧
      o.step.dout = (if o.srcnt = 1 ∧ o.q = [] then .undriven else .driven (o.sr.getLsbD 31))) ∧
    (o.srcnt = 0 → o.q = [] → o.step = o)

/-- R50, R89: however many steps it takes, the serializer drives the queued bits in order and loses none; and since a
word takes one `load` and 32 `shift` steps, after `SRCNT + 33 × Qlen` steps everything has been driven. -/
def Obligations.SerializerDrivesTheBitStreamInOrder : Prop :=
  ∀ o : Output,
    (∀ k : Nat, (Output.run k o).stream = o.stream ∧ o.out <+: (Output.run k o).out) ∧
    (Output.run (o.srcnt + 33 * o.q.length) o).out = o.stream ∧ (Output.run (o.srcnt + 33 * o.q.length) o).q = [] ∧
    (Output.run (o.srcnt + 33 * o.q.length) o).srcnt = 0

/-- R50 for the whole machine: but for `WG.INIT` and reset, a step only appends to the stream of bits driven and to be
driven, and to the bits driven. -/
def Obligations.OnlyInitAndResetDiscardBits : Prop :=
  ∀ s t : State, s.resetNext = false → s.nextCommand ≠ some .wgInit → step s = .next t →
    s.output.stream <+: t.output.stream ∧ s.output.out <+: t.output.out

/-! ## The Waveform Generator -/

/-- R81: `WG.INIT` returns the generator to its reset state and touches nothing else (the pin's level apart, log 8). -/
def Obligations.WgInitResetsTheGenerator : Prop :=
  ∀ s : State, ∃ t, exec .wgInit s = .next t ∧
    t = { s with acc := 0, target := 0, output := t.output, result := 0,
                 status := { s.status with ok := true, cause := .none } } ∧
    t.output.q = [] ∧ t.output.srcnt = 0 ∧ t.output.sr = s.output.sr ∧ t.output.out = s.output.out

/-- R85: `WG.SETT level` sets the target; `ACC`, the queue and the serializer are untouched. -/
def Obligations.WgSettSetsTheTarget : Prop :=
  ∀ (level : Level) (s : State),
    exec (.wgSett level) s = .next { s with target := level, result := 0,
                                            status := { s.status with ok := true, cause := .none } }

/-- R86, R84: with room in the queue `WG.FEED` queues the next word, keeps the accumulator afterwards and returns the
word; nothing else changes. -/
def Obligations.WgFeedQueuesTheNextWord : Prop :=
  ∀ s : State, s.output.q.length ≠ Config.qdepth →
    exec .wgFeed s = .next
      { s with acc := (genWord s.acc s.target).1,
               output := { s.output with q := s.output.q ++ [(genWord s.acc s.target).2] },
               result := (genWord s.acc s.target).2,
               status := { s.status with ok := true, cause := .none } }

/-- R86, R92, R172: on a full queue `WG.FEED` reports `QUEUE_FULL` and nothing but `OK`, `CAUSE` and `RESULT` changes. -/
def Obligations.WgFeedOnAFullQueueChangesNothing : Prop :=
  ∀ s : State, s.output.q.length = Config.qdepth →
    (feedAttempt s).1 = none ∧ (feedAttempt s).2 = s ∧
    exec .wgFeed s = .next { s with result := 0, status := { s.status with ok := false, cause := .queueFull } }

/-- R82, R83, R87, R91: one word. The accumulator gains `32 × T × 2^20` modulo 2^32; bit `31 - k` of the word is the
carry of step `k`; and the word has as many ones as carries. -/
def Obligations.GenWordIsTheClosedForm : Prop :=
  ∀ (acc : Word) (t : Level),
    (genWord acc t).1.toNat = (acc.toNat + 32 * t.toNat * 2 ^ 20) % 2 ^ 32 ∧
    (∀ k, k < 32 → ((genWord acc t).2.getLsbD (31 - k)).toNat =
      (acc.toNat + (k + 1) * t.toNat * 2 ^ 20) / 2 ^ 32 - (acc.toNat + k * t.toNat * 2 ^ 20) / 2 ^ 32) ∧
    (wordBits (genWord acc t).2).count true = (acc.toNat + 32 * t.toNat * 2 ^ 20) / 2 ^ 32

/-- R93: over `n` words generated at a constant level the number of ones differs from `32 × n × T / 4096` by less
than 1. -/
def Obligations.ModulatorIsFaithful : Prop :=
  ∀ (acc : Word) (t : Level) (n : Nat),
    4096 * ones (modWords t n acc).1 < 32 * n * t.toNat + 4096 ∧
    32 * n * t.toNat < 4096 * ones (modWords t n acc).1 + 4096

/-- R88: 128 words return the accumulator to where it started and contain exactly `T` ones; at level 4095 from 0 the
stream is one 0 and then 4095 ones. -/
def Obligations.ModulatorHasPeriod128Words : Prop :=
  (∀ (acc : Word) (t : Level), (modWords t 128 acc).2 = acc ∧ ones (modWords t 128 acc).1 = t.toNat) ∧
  (modWords 4095 128 0).1.flatMap wordBits = false :: List.replicate 4095 true

/-! ## The Sampler -/

/-- R101, R102: `SMP.RAW` makes one feed attempt and one converter read, returns the sample unchanged and leaves the
converter at its next answer. -/
def Obligations.SmpRawReturnsTheSample : Prop :=
  ∀ s : State, ∃ t, exec .smpRaw s = .next t ∧
    t = { s with acc := t.acc, output := t.output, result := t.result,
                 status := { s.status with ok := true, cause := .none }, env := t.env } ∧
    t.result.toNat = (s.env.answer 0).toNat ∧
    t.acc = (if s.output.q.length = Config.qdepth then s.acc else (genWord s.acc s.target).1) ∧
    t.output.stream =
      s.output.stream ++ (if s.output.q.length = Config.qdepth then [] else wordBits (genWord s.acc s.target).2) ∧
    t.env = { s.env with adc := t.env.adc, schedule := t.env.schedule, turns := t.env.turns,
                          draws := s.env.draws + 1 } ∧
    ∀ i, t.env.answer i = s.env.answer (i + 1)

/-- R103, R101: `SMP.AVG n` takes `n` samples, each one feed attempt and one converter read, returns
`(sum + n div 2) div n` over the next `n` answers of the converter, and changes nothing but the generator, `RESULT` and
`STATUS`. -/
def Obligations.SmpAvgReturnsTheRoundedMean : Prop :=
  ∀ (n : Half) (s : State), n ≠ 0 → ∃ t, exec (.smpAvg n) s = .next t ∧
    t = { s with acc := t.acc, output := t.output, result := t.result, seq := .idle,
                 status := { s.status with ok := true, cause := .none }, env := t.env } ∧
    t.result.toNat =
      (((List.range n.toNat).map fun i => (s.env.answer i).toNat).sum + n.toNat / 2) / n.toNat ∧
    t.acc = (averageLoop n.toNat s).acc ∧ t.output = (averageLoop n.toNat s).output ∧
    t.env = (averageLoop n.toNat s).env ∧ t.env.draws = s.env.draws + n.toNat ∧
    ∀ i, t.env.answer i = s.env.answer (i + n.toNat)

/-- R103, R64: the reserved `SMP.AVG 0` raises `ILLEGAL_COMMAND`; nothing is sampled and nothing fed (log 20). -/
def Obligations.SmpAvgOfZeroIsIllegal : Prop :=
  ∀ s : State, exec (.smpAvg 0) s =
    .next { s with result := 0, status := { ok := false, ill := true, cause := .illegalCommand } }

/-- R104: the sum of up to 65535 samples, and that sum with `n div 2` added, fit 32 bits, and the mean fits 16. -/
def Obligations.AverageNeverWraps : Prop :=
  ∀ (n : Half) (e : Env), n ≠ 0 →
    ((List.range n.toNat).map fun i => (e.answer i).toNat).sum ≤ 4294836225 ∧
    ((List.range n.toNat).map fun i => (e.answer i).toNat).sum + n.toNat / 2 ≤ 4294868992 ∧
    roundedMean ((List.range n.toNat).map fun i => (e.answer i).toNat).sum n.toNat ≤ 65535

/-! ## The Histogram Collector -/

/-- R111: `HST.CLR` zeroes the histogram and touches no calibration data. -/
def Obligations.HstClrZeroesTheHistogram : Prop :=
  ∀ s : State, ∃ t, exec .hstClr s = .next t ∧
    t = { s with hist := t.hist, result := 0, status := { s.status with ok := true, cause := .none } } ∧
    ∀ i, i < 4096 → t.histAt i = 0

/-- R112, R113, R118: `HST.REC code` adds 1 modulo 2^32 to one counter, or, for a code above 4095, changes no counter
and succeeds all the same. -/
def Obligations.HstRecCountsOneCode : Prop :=
  ∀ (code : Half) (s : State), ∃ t, exec (.hstRec code) s = .next t ∧
    t = { s with hist := t.hist, result := 0, status := { s.status with ok := true, cause := .none } } ∧
    (code.toNat ≤ 4095 → (t.histAt code.toNat).toNat = ((s.histAt code.toNat).toNat + 1) % 2 ^ 32) ∧
    (code.toNat ≤ 4095 → ∀ i, i ≠ code.toNat → t.histAt i = s.histAt i) ∧
    (4095 < code.toNat → t.hist = s.hist)

/-- R114, R119: `HST.COLLECT` ends with every counter holding the number of its samples modulo 2^32, `TARGET` 0, the
converter at the answer after the run's samples, and nothing else changed but the generator, `RESULT` and `STATUS`. -/
def Obligations.HstCollectTalliesEverySample : Prop :=
  ∀ s : State, ∃ t, exec .hstCollect s = .next t ∧
    t = { s with target := 0, acc := t.acc, output := t.output, hist := t.hist, result := 0, seq := .idle,
                 status := { s.status with ok := true, cause := .none }, env := t.env } ∧
    (∀ c, c < 4096 → (t.histAt c).toNat =
      ((List.range (collectSamples s)).countP fun i => (s.env.answer i).toNat = c) % 2 ^ 32) ∧
    t.env = { s.env with adc := t.env.adc, schedule := t.env.schedule, turns := t.env.turns,
                          draws := s.env.draws + collectSamples s } ∧
    ∀ i, t.env.answer i = s.env.answer (i + collectSamples s)

/-- R117: when no counter wraps (each code is answered fewer than 2^32 times), the counters sum to the samples taken
less those out of range. -/
def Obligations.HistogramConservation : Prop :=
  ∀ s t : State,
    (∀ c, c < 4096 → ((List.range (collectSamples s)).countP fun i => (s.env.answer i).toNat = c) < 2 ^ 32) →
    exec .hstCollect s = .next t →
    ((List.range 4096).map fun c => (t.histAt c).toNat).sum +
      ((List.range (collectSamples s)).countP fun i => 4095 < (s.env.answer i).toNat) = collectSamples s

/-- R114, R115, R116: the sequencer computes exactly the loops of the pseudocode, passes ascending and descending in
turn, each level settled and then sampled. Where the serializer's turns stand in both is the model's choice (log 2). -/
def Obligations.HstCollectIsThePseudocode : Prop :=
  ∀ s : State, exec .hstCollect s = .next (collectLoop s)

/-- R115: sample `k` of visit `j` of a pass, sample `i` of the run, is taken with `TARGET` at the level of that visit,
which is `sampleLevel` of `i`, and reads the converter's `i`-th answer. R114's example: a converter that always answers
with the `TARGET` of the sample gives every counter `NUM_SWEEPS × SAMPLES_PER_LEVEL`. The count of micro-steps includes the
model's bookkeeping steps (log 14). -/
def Obligations.IdealConverterGivesAUniformHistogram : Prop :=
  ∀ s : State,
    (∀ pass j k : Nat, pass < s.numSweeps.toNat → j < 4096 → k < s.samplesPerLevel.toNat →
      let visitSteps := s.settleTicks.toNat + s.samplesPerLevel.toNat + 2
      let u := seqRun ((pass * 4096 + j) * visitSteps + (s.settleTicks.toNat + 1) + k) (startCollect s)
      let i := (pass * 4096 + j) * s.samplesPerLevel.toNat + k
      u.seq = .collect s.numSweeps.toNat s.samplesPerLevel.toNat s.settleTicks.toNat pass u.target (.sample k) ∧
      u.target.toNat = (if pass % 2 = 0 then j else 4095 - j) ∧
      u.target.toNat = sampleLevel s.samplesPerLevel.toNat i ∧
      u.env.answer 0 = s.env.answer i) ∧
    ((∀ i, i < collectSamples s → (s.env.answer i).toNat = sampleLevel s.samplesPerLevel.toNat i) →
      ∃ t, exec .hstCollect s = .next t ∧
        ∀ c, c < 4096 → (t.histAt c).toNat = s.numSweeps.toNat * s.samplesPerLevel.toNat)

/-! ## The LUT Builder -/

/-- R134: `LUT.BUILD` of an all-zero histogram fails and leaves the prior calibration. -/
def Obligations.LutBuildOfAnEmptyHistogramFails : Prop :=
  ∀ s : State, (∀ i, i < 4096 → s.histAt i = 0) →
    exec .lutBuild s = .next { s with result := 0, status := { s.status with ok := false, cause := .emptyHistogram } }

/-- R126 to R133: `LUT.BUILD` of a histogram whose first and last observed codes are `a` and `b`. -/
def Obligations.LutBuildEqualisesTheHistogram : Prop :=
  ∀ (s : State) (a b : Nat), a ≤ b → b < 4096 → s.histAt a ≠ 0 → s.histAt b ≠ 0 →
    (∀ i, i < 4096 → (i < a ∨ b < i) → s.histAt i = 0) →
    ∃ t, exec .lutBuild s = .next t ∧
      t = { s with corr := t.corr, codeMin := BitVec.ofNat 16 a, codeMax := BitVec.ofNat 16 b,
                   magic := 0xCA11B8ED#32, result := 0, status := { s.status with ok := true, cause := .none } } ∧
      (∀ code, a ≤ code → code ≤ b →
        let total := ((List.range' a (b - a + 1)).map fun i => (s.histAt i).toNat).sum
        let below := ((List.range' a (code - a)).map fun i => (s.histAt i).toNat).sum
        t.corrAt code =
          (a : Int) + (((2 * below + (s.histAt code).toNat) * (b - a + 1) + total - 1) / (2 * total) : Nat) - code) ∧
      (∀ code, code < a → t.corrAt code = 0) ∧
      (∀ code, b < code → code < 4096 → t.corrAt code = t.corrAt b)

/-- R131, R9: the builder's quotient is the ideal code rounded to nearest with ties down: it is within one half of
`p / q`, and exactly one half above it is never taken. -/
def Obligations.BuilderRoundsTiesDown : Prop :=
  ∀ c h n total : Nat, 0 < total →
    (idealIndex c h n total : Int) = roundHd ((2 * c + h) * n : Nat) (2 * total : Nat) ∧
    2 * ((2 * c + h) * n) ≤ 2 * (2 * total) * idealIndex c h n total + 2 * total ∧
    2 * (2 * total) * idealIndex c h n total < 2 * ((2 * c + h) * n) + 2 * total

/-- R136 (a): a histogram with one count, not 0, for every code needs no correction. -/
def Obligations.UniformHistogramNeedsNoCorrection : Prop :=
  ∀ (s : State) (h : Word), h ≠ 0 → (∀ i, i < 4096 → s.histAt i = h) →
    ∃ t, exec .lutBuild s = .next t ∧ t.codeMin = 0 ∧ t.codeMax = 4095 ∧ ∀ i, i < 4096 → t.corrAt i = 0

/-- R135: a built entry lies in `[cmin - code, cmax + 1 - code]`, and the linearised codes never go backwards. -/
def Obligations.BuiltCodesNeverGoBackwards : Prop :=
  ∀ (s t : State) (a b : Nat), a ≤ b → b < 4096 → s.histAt a ≠ 0 → s.histAt b ≠ 0 →
    (∀ i, i < 4096 → (i < a ∨ b < i) → s.histAt i = 0) → exec .lutBuild s = .next t →
    (∀ code : Nat, a ≤ code → code ≤ b → (a : Int) - code ≤ t.corrAt code ∧ t.corrAt code ≤ (b : Int) + 1 - code) ∧
    (∀ code code' : Nat, a ≤ code → code ≤ code' → code' ≤ b →
      (code : Int) + t.corrAt code ≤ (code' : Int) + t.corrAt code')

/-! ## The Boundary Smoother -/

/-- R141, R142, R144: the 31 entries between the anchors of each boundary are interpolated from the anchors, and no
other entry and no other state changes. -/
def Obligations.LutSmoothInterpolatesAcrossTheBoundaries : Prop :=
  ∀ s : State, ∃ t, exec .lutSmooth s = .next t ∧
    t = { s with corr := t.corr, result := 0, status := { s.status with ok := true, cause := .none } } ∧
    (∀ b ∈ [512, 1536, 2560, 3584], ∀ k : Nat, 1 ≤ k → k ≤ 31 →
      t.corrAt (b - 16 + k) =
        s.corrAt (b - 16) + ((k : Int) * (s.corrAt (b + 16) - s.corrAt (b - 16)) + 15) / 32) ∧
    (∀ i, i < 4096 → (∀ b ∈ [512, 1536, 2560, 3584], i ≤ b - 16 ∨ b + 16 ≤ i) → t.corrAt i = s.corrAt i)

/-- R146: smoothing twice gives what smoothing once gives. -/
def Obligations.SmoothingIsIdempotent : Prop :=
  ∀ s : State, ∃ t, exec .lutSmooth s = .next t ∧ exec .lutSmooth t = .next t

/-- R143: the interpolated value is the exact one rounded to nearest with ties down, and lies between the anchors. -/
def Obligations.InterpolationRoundsBetweenTheAnchors : Prop :=
  ∀ (aL aR : Int) (k : Nat), 1 ≤ k → k ≤ 31 →
    interpolate aL aR k = aL + roundHd (k * (aR - aL)) 32 ∧
    interpolate aL aR k = aL + (2 * k * (aR - aL) + 31) / 64 ∧
    interpolate aL aR k = aL + (k * (aR - aL) + 15) / 32 ∧
    min aL aR ≤ interpolate aL aR k ∧ interpolate aL aR k ≤ max aL aR

/-! ## The Runtime Corrector -/

/-- R150: with a valid calibration `LUT.CORRECT raw` returns `clamp(raw + CORR[raw], 0, 4095)` and changes only
`RESULT` and `STATUS`. -/
def Obligations.LutCorrectAddsAndClamps : Prop :=
  ∀ (raw : Level) (s : State), s.magic = 0xCA11B8ED#32 → ∃ t, exec (.lutCorrect raw) s = .next t ∧
    t = { s with result := t.result, status := { s.status with ok := true, cause := .none } } ∧
    (t.result.toNat : Int) =
      (if (raw.toNat : Int) + s.corrAt raw.toNat < 0 then 0
       else if 4095 < (raw.toNat : Int) + s.corrAt raw.toNat then 4095
       else (raw.toNat : Int) + s.corrAt raw.toNat)

/-- R151, U1: without a valid calibration the result is any value in 0 to 4095, all other effects as in R150 (log 9). -/
def Obligations.LutCorrectBeforeCalibrationIsInRange : Prop :=
  ∀ (raw : Level) (s : State), s.magic ≠ 0xCA11B8ED#32 → ∃ t, exec (.lutCorrect raw) s = .next t ∧
    t = { s with result := t.result, status := { s.status with ok := true, cause := .none },
                 env := { s.env with uncal := s.env.uncal + 1 } } ∧
    t.result.toNat ≤ 4095

/-- R152: over a table just built the corrected codes are non-decreasing in the raw code, and at most 4095. -/
def Obligations.CorrectionOfABuiltTableIsMonotone : Prop :=
  ∀ (s t u v : State) (a b : Level), (∃ i, i < 4096 ∧ s.histAt i ≠ 0) → exec .lutBuild s = .next t →
    a.toNat ≤ b.toNat → exec (.lutCorrect a) t = .next u → exec (.lutCorrect b) t = .next v →
    u.result.toNat ≤ v.result.toNat ∧ v.result.toNat ≤ 4095

/-! ## The Calibration Record -/

/-- R155, R156: `REC.STORE` writes the 8200 bytes of the layout and changes nothing else; `RESULT` is 8200. -/
def Obligations.RecStoreWritesTheLayout : Prop :=
  ∀ s : State, Memory.wf s.env.resets s.recbuf → ∃ t, exec .recStore s = .next t ∧
    t = { s with recbuf := t.recbuf, result := 8200, status := { s.status with ok := true, cause := .none } } ∧
    t.recAt 0 = s.magic.extractLsb' 0 8 ∧ t.recAt 1 = s.magic.extractLsb' 8 8 ∧
    t.recAt 2 = s.magic.extractLsb' 16 8 ∧ t.recAt 3 = s.magic.extractLsb' 24 8 ∧
    (∀ i, i < 4096 → t.recAt (4 + 2 * i) = (s.corr.getD i 0).extractLsb' 0 8 ∧
      t.recAt (5 + 2 * i) = (s.corr.getD i 0).extractLsb' 8 8) ∧
    t.recAt 8196 = s.codeMin.extractLsb' 0 8 ∧ t.recAt 8197 = s.codeMin.extractLsb' 8 8 ∧
    t.recAt 8198 = s.codeMax.extractLsb' 0 8 ∧ t.recAt 8199 = s.codeMax.extractLsb' 8 8 ∧
    ∀ a, 8200 ≤ a → t.recAt a = s.recAt a

/-- R157: a valid load takes magic, table and range from `RECBUF`, unchecked (U8), and changes nothing else. -/
def Obligations.RecLoadOfAValidRecordLoadsIt : Prop :=
  ∀ (size : Half) (s : State), size.toNat = 8200 →
    (s.recAt 0).toNat + 256 * (s.recAt 1).toNat + 65536 * (s.recAt 2).toNat + 16777216 * (s.recAt 3).toNat
      = 0xCA11B8ED →
    ∃ t, exec (.recLoad size) s = .next t ∧
      t = { s with corr := t.corr, codeMin := t.codeMin, codeMax := t.codeMax, magic := 0xCA11B8ED#32, result := 0,
                   status := { s.status with ok := true, cause := .none } } ∧
      (∀ i, i < 4096 → t.corrAt i =
        (BitVec.ofNat 16 ((s.recAt (4 + 2 * i)).toNat + 256 * (s.recAt (5 + 2 * i)).toNat)).toInt) ∧
      t.codeMin.toNat = (s.recAt 8196).toNat + 256 * (s.recAt 8197).toNat ∧
      t.codeMax.toNat = (s.recAt 8198).toNat + 256 * (s.recAt 8199).toNat

/-- R158: a load succeeds exactly when the size is the record's and the magic matches; any other changes nothing but `OK`,
`CAUSE` and `RESULT`. -/
def Obligations.RecLoadOfAnInvalidRecordChangesNothing : Prop :=
  ∀ (size : Half) (s : State),
    let valid := size.toNat = 8200 ∧
      (s.recAt 0).toNat + 256 * (s.recAt 1).toNat + 65536 * (s.recAt 2).toNat + 16777216 * (s.recAt 3).toNat
        = 0xCA11B8ED
    (∃ t, exec (.recLoad size) s = .next t ∧ (t.status.ok = true ↔ valid)) ∧
    (¬ valid → exec (.recLoad size) s =
      .next { s with result := 0, status := { s.status with ok := false, cause := .dataInvalid } })

/-- R159: whatever happens to the calibration in between, `REC.LOAD 8200` of an untouched `RECBUF` restores it, and a
second `REC.STORE` writes the same bytes. -/
def Obligations.StoreThenLoadRestoresTheCalibration : Prop :=
  ∀ s t u : State, Memory.wf s.env.resets s.recbuf → s.magic = 0xCA11B8ED#32 → exec .recStore s = .next t →
    u.recbuf = t.recbuf → u.env.resets = t.env.resets →
    ∃ v w, exec (.recLoad 8200#16) u = .next v ∧ exec .recStore v = .next w ∧
      v.corr = s.corr ∧ v.codeMin = s.codeMin ∧ v.codeMax = s.codeMax ∧ v.magic = s.magic ∧
      ∀ a, a < 8200 → w.recAt a = t.recAt a

/-! ## The host's accesses -/

/-- R34: what a 32-bit read of each register returns. `QLEVEL` returns some word also when `Qlen` does not fit 32 bits, the
same one as long as the queue is the same (R45); which one the spec does not say, and the model leaves it free (log 21). -/
def Obligations.RegisterReadsReturnTheRegister : Prop :=
  ∀ s : State,
    hostRead 0x000 4 s = .next { s with env := { s.env with rdata := 0 } } ∧
    hostRead 0x004 4 s = .next { s with env := { s.env with rdata := s.statusWord } } ∧
    hostRead 0x008 4 s = .next { s with env := { s.env with rdata := s.result } } ∧
    hostRead 0x00C 4 s = .next { s with env := { s.env with rdata := 0#20 ++ s.target } } ∧
    hostRead 0x010 4 s = .next { s with env := { s.env with rdata := s.acc } } ∧
    (s.output.q.length < 2 ^ 32 →
      hostRead 0x014 4 s = .next { s with env := { s.env with rdata := BitVec.ofNat 32 s.output.q.length } }) ∧
    (∀ t : State, t.output.q = s.output.q →
      ∃ w, hostRead 0x014 4 s = .next { s with env := { s.env with rdata := w } } ∧
        hostRead 0x014 4 t = .next { t with env := { t.env with rdata := w } }) ∧
    hostRead 0x018 4 s = .next { s with env := { s.env with rdata := 0#24 ++ s.numSweeps } } ∧
    hostRead 0x01C 4 s = .next { s with env := { s.env with rdata := 0#16 ++ s.samplesPerLevel } } ∧
    hostRead 0x020 4 s = .next { s with env := { s.env with rdata := s.settleTicks } } ∧
    hostRead 0x024 4 s = .next { s with env := { s.env with rdata := 0#16 ++ s.codeMin } } ∧
    hostRead 0x028 4 s = .next { s with env := { s.env with rdata := 0#16 ++ s.codeMax } } ∧
    hostRead 0x02C 4 s = .next { s with env := { s.env with rdata := s.magic } }

/-- R21, R171: the fields of `STATUS`, the cause codes, and the one effect of a write. -/
def Obligations.StatusHasTheFieldsOfR21 : Prop :=
  (∀ s : State,
    s.statusWord.getLsbD 0 = s.status.ok ∧
    s.statusWord.getLsbD 1 = decide (s.magic = 0xCA11B8ED#32) ∧
    s.statusWord.getLsbD 2 = decide (s.output.q.length = Config.qdepth) ∧
    s.statusWord.getLsbD 3 = decide (s.output.q.length = 0) ∧
    s.statusWord.getLsbD 4 = s.status.ill ∧
    s.statusWord.extractLsb' 5 3 = 0#3 ∧
    s.statusWord.extractLsb' 8 4 =
      (match s.status.cause with
       | .none => 0#4 | .queueFull => 1#4 | .dataInvalid => 2#4 | .emptyHistogram => 3#4 | .illegalCommand => 4#4) ∧
    s.statusWord.extractLsb' 12 20 = 0#20) ∧
  (∀ (s : State) (v : Word), hostWrite 0x004 4 v s =
    .next { s with status := { s.status with ill := if v.getLsbD 4 then false else s.status.ill } })

/-- R22 to R24, R34: the configuration registers store what their width holds; the read-only registers ignore writes. -/
def Obligations.RegisterWritesStoreOrAreIgnored : Prop :=
  ∀ (s : State) (v : Word),
    hostWrite 0x018 4 v s = .next { s with numSweeps := v.extractLsb' 0 8 } ∧
    hostWrite 0x01C 4 v s = .next { s with samplesPerLevel := v.extractLsb' 0 16 } ∧
    hostWrite 0x020 4 v s = .next { s with settleTicks := v } ∧
    ∀ off ∈ [0x008#16, 0x00C#16, 0x010#16, 0x014#16, 0x024#16, 0x028#16, 0x02C#16], hostWrite off 4 v s = .next s

/-- R41, R42: the windows on `HIST` and `CORR`, which ignore writes, and the bytes of `RECBUF`. -/
def Obligations.WindowsShowTheTables : Prop :=
  ∀ (s : State) (i : Nat) (v : Word), i < 4096 →
    hostRead (BitVec.ofNat 16 (0x4000 + 4 * i)) 4 s = .next { s with env := { s.env with rdata := s.histAt i } } ∧
    hostRead (BitVec.ofNat 16 (0x8000 + 2 * i)) 2 s =
      .next { s with env := { s.env with rdata := 0#16 ++ s.corr.getD i 0 } } ∧
    (i % 2 = 0 → hostRead (BitVec.ofNat 16 (0x8000 + 2 * i)) 4 s =
      .next { s with env := { s.env with rdata := s.corr.getD (i + 1) 0 ++ s.corr.getD i 0 } }) ∧
    hostWrite (BitVec.ofNat 16 (0x4000 + 4 * i)) 4 v s = .next s ∧
    hostWrite (BitVec.ofNat 16 (0x8000 + 2 * i)) 2 v s = .next s ∧
    (i % 2 = 0 → hostWrite (BitVec.ofNat 16 (0x8000 + 2 * i)) 4 v s = .next s) ∧
    ∀ a, a < 8200 →
      hostRead (BitVec.ofNat 16 (0xA000 + a)) 1 s = .next { s with env := { s.env with rdata := 0#24 ++ s.recAt a } }

/-- R41, R42, R43: an aligned write of 1, 2 or 4 bytes to `RECBUF` stores them little-endian and leaves every other
byte and all other state; a read of the same size then returns them. -/
def Obligations.RecbufWritesStoreLittleEndian : Prop :=
  ∀ (s : State) (a n : Nat) (v : Word), Memory.wf s.env.resets s.recbuf →
    (n = 1 ∨ n = 2 ∨ n = 4) → a % n = 0 → a + n ≤ 8200 →
    ∃ t, hostWrite (BitVec.ofNat 16 (0xA000 + a)) n v s = .next t ∧ t = { s with recbuf := t.recbuf } ∧
      (∀ k, k < n → t.recAt (a + k) = v.extractLsb' (8 * k) 8) ∧
      (∀ x, (x < a ∨ a + n ≤ x) → t.recAt x = s.recAt x) ∧
      hostRead (BitVec.ofNat 16 (0xA000 + a)) n t =
        .next { t with env := { t.env with rdata := v &&& BitVec.ofNat 32 (2 ^ (8 * n) - 1) } }

/-- R43, R44, R45, U5: an access is performed exactly when R43 lists its offset and size (a write to a read-only location
among them being ignored, R34, R41), a read then changes nothing but what it hands to the host, and every other access is
refused by name (the model's treatment, log 11). -/
def Obligations.AccessesAreListedOrRefused : Prop :=
  ∀ (s : State) (off : BitVec 16) (n : Nat) (v : Word),
    (∀ t, hostRead off n s = .next t → t = { s with env := { s.env with rdata := t.env.rdata } }) ∧
    ((∃ t, hostRead off n s = .next t) ↔ legalAccess off.toNat n) ∧
    ((∃ t, hostWrite off n v s = .next t) ↔ legalAccess off.toNat n) ∧
    (¬ legalAccess off.toNat n →
      ∃ r, (r = Refusal.reservedOffset off.toNat ∨ r = Refusal.illSizedAccess off.toNat n) ∧
        hostRead off n s = .refused r ∧ hostWrite off n v s = .refused r)

/-! ## The whole machine -/

/-- The invariant holds at reset (R12, R13, R14, R18, R21). -/
def Obligations.ResetMeetsTheInvariant : Prop := State.reset.Inv

/-- Every step keeps the invariant: `ACC[19:0] = 0`, `Qlen ≤ QDEPTH`, `SRCNT ≤ 32`, `MAGIC` 0 or the sentinel,
`CAUSE` 0 when `OK`, the sequencer inside its loops, the record buffer in canonical form. -/
def Obligations.EveryStepKeepsTheInvariant : Prop :=
  ∀ s t : State, s.Inv → step s = .next t → t.Inv

/-- R197, R18: nothing short of reset takes a valid calibration's `STATUS.VALID` away. -/
def Obligations.OnlyResetEndsValidity : Prop :=
  ∀ s t : State, s.statusWord.getLsbD 1 = true → s.resetNext = false → step s = .next t →
    t.statusWord.getLsbD 1 = true

/-- R16, R17, R18, R33: but for reset, the calibration changes only in a step that runs `LUT.BUILD`, `LUT.SMOOTH` or
`REC.LOAD`. -/
def Obligations.CalibrationHasOnlyItsWriters : Prop :=
  ∀ s t : State, s.resetNext = false → step s = .next t →
    (t.corr ≠ s.corr ∨ t.codeMin ≠ s.codeMin ∨ t.codeMax ≠ s.codeMax ∨ t.magic ≠ s.magic) →
    s.nextCommand = some .lutBuild ∨ s.nextCommand = some .lutSmooth ∨ ∃ size, s.nextCommand = some (.recLoad size)

/-- R15, R119: but for reset, the histogram changes only in a step that runs `HST.CLR`, `HST.REC` or `HST.COLLECT`, or
in a micro-step of a collection in flight. -/
def Obligations.HistogramHasOnlyItsWriters : Prop :=
  ∀ s t : State, s.resetNext = false → step s = .next t → t.hist ≠ s.hist →
    s.nextCommand = some .hstClr ∨ (∃ code, s.nextCommand = some (.hstRec code)) ∨
    s.nextCommand = some .hstCollect ∨ ∃ ns spl st pass level phase, s.seq = .collect ns spl st pass level phase

/-- R11: but for reset, the accumulator changes only in a step that makes feed attempts or runs `WG.INIT`. -/
def Obligations.AccumulatorHasOnlyItsWriters : Prop :=
  ∀ s t : State, s.resetNext = false → step s = .next t → t.acc ≠ s.acc →
    s.seq ≠ .idle ∨ s.nextCommand = some .wgInit ∨ s.nextCommand = some .wgFeed ∨ s.nextCommand = some .smpRaw ∨
    (∃ n, s.nextCommand = some (.smpAvg n)) ∨ s.nextCommand = some .hstCollect
end

