-- ==== Sys2Proof/Laws/Bits.lean ====
section
/-! SUPPORT. The fields of a packed command word, and little-endian bytes put together again, by arithmetic on their
values. -/

namespace Sys2Proof

/-- The value of two bit vectors side by side. -/
theorem toNat_append_add {n m : Nat} (x : BitVec n) (y : BitVec m) :
    (x ++ y).toNat = x.toNat * 2 ^ m + y.toNat := by
  rw [BitVec.toNat_append, ← Nat.shiftLeft_add_eq_or_of_lt y.isLt, Nat.shiftLeft_eq]

/-! ## The fields of a word -/

theorem toNat_opOf (w : Word) : (opOf w).toNat = w.toNat / 2 ^ 24 := by
  have := w.isLt
  simp only [opOf, BitVec.extractLsb'_toNat, Nat.shiftRight_eq_div_pow]
  omega

theorem toNat_rsvOf (w : Word) : (rsvOf w).toNat = w.toNat / 2 ^ 16 % 2 ^ 8 := by
  simp only [rsvOf, BitVec.extractLsb'_toNat, Nat.shiftRight_eq_div_pow]

theorem toNat_argOf (w : Word) : (argOf w).toNat = w.toNat % 2 ^ 16 := by
  simp only [argOf, BitVec.extractLsb'_toNat, Nat.shiftRight_eq_div_pow]
  omega

theorem toNat_packWord (op : Byte) (arg : Half) : (packWord op arg).toNat = op.toNat * 2 ^ 24 + arg.toNat := by
  refine (toNat_append_add (op ++ 0#8) arg).trans ?_
  rw [toNat_append_add]
  simp
  omega

@[simp] theorem opOf_packWord (op : Byte) (arg : Half) : opOf (packWord op arg) = op := by
  have := arg.isLt
  apply BitVec.eq_of_toNat_eq
  rw [toNat_opOf, toNat_packWord]
  omega

@[simp] theorem rsvOf_packWord (op : Byte) (arg : Half) : rsvOf (packWord op arg) = 0 := by
  have := arg.isLt
  apply BitVec.eq_of_toNat_eq
  rw [toNat_rsvOf, toNat_packWord]
  show _ = 0
  omega

@[simp] theorem argOf_packWord (op : Byte) (arg : Half) : argOf (packWord op arg) = arg := by
  have := arg.isLt
  apply BitVec.eq_of_toNat_eq
  rw [toNat_argOf, toNat_packWord]
  omega

/-- A word whose `rsv` is 0 is the packing of its fields. -/
theorem packWord_fields (w : Word) (h : rsvOf w = 0) : packWord (opOf w) (argOf w) = w := by
  have hr : w.toNat / 2 ^ 16 % 2 ^ 8 = 0 := by rw [← toNat_rsvOf, h]; rfl
  apply BitVec.eq_of_toNat_eq
  rw [toNat_packWord, toNat_opOf, toNat_argOf]
  omega

theorem toNat_low12 (arg : Half) : (arg.extractLsb' 0 12).toNat = arg.toNat % 2 ^ 12 := by
  simp only [BitVec.extractLsb'_toNat, Nat.shiftRight_eq_div_pow]
  omega

theorem toNat_high4 (arg : Half) : (arg.extractLsb' 12 4).toNat = arg.toNat / 2 ^ 12 := by
  have := arg.isLt
  simp only [BitVec.extractLsb'_toNat, Nat.shiftRight_eq_div_pow]
  omega

theorem toNat_widenLevel (level : Level) : (0#4 ++ level : Half).toNat = level.toNat := by
  refine (toNat_append_add 0#4 level).trans ?_
  simp

@[simp] theorem low12_append (level : Level) : ((0#4 ++ level : Half).extractLsb' 0 12) = level := by
  have := level.isLt
  apply BitVec.eq_of_toNat_eq
  rw [toNat_low12, toNat_widenLevel]
  omega

@[simp] theorem high4_append (level : Level) : ((0#4 ++ level : Half).extractLsb' 12 4) = 0#4 := by
  have := level.isLt
  apply BitVec.eq_of_toNat_eq
  rw [toNat_high4, toNat_widenLevel]
  show _ = 0
  omega

/-- A half-word whose upper four bits are 0 is its lower twelve, zero-extended. -/
theorem append_low12 (arg : Half) (h : arg.extractLsb' 12 4 = 0#4) : (0#4 ++ arg.extractLsb' 0 12 : Half) = arg := by
  have hh : arg.toNat / 2 ^ 12 = 0 := by rw [← toNat_high4, h]; rfl
  apply BitVec.eq_of_toNat_eq
  rw [toNat_widenLevel, toNat_low12]
  omega

/-! ## Little-endian bytes -/

theorem toNat_ofLe16 (b0 b1 : Byte) : (ofLe16 b0 b1).toNat = b0.toNat + 256 * b1.toNat := by
  refine (toNat_append_add b1 b0).trans ?_
  omega

theorem toNat_ofLe32 (b0 b1 b2 b3 : Byte) :
    (ofLe32 b0 b1 b2 b3).toNat = b0.toNat + 256 * b1.toNat + 65536 * b2.toNat + 16777216 * b3.toNat := by
  refine (toNat_append_add (b3 ++ b2 ++ b1) b0).trans ?_
  rw [toNat_append_add, toNat_append_add]
  omega

theorem toNat_byte (n : Nat) {w : Nat} (v : BitVec w) : (v.extractLsb' n 8).toNat = v.toNat / 2 ^ n % 256 := by
  simp only [BitVec.extractLsb'_toNat, Nat.shiftRight_eq_div_pow]

@[simp] theorem ofLe16_bytes (v : Half) : ofLe16 (v.extractLsb' 0 8) (v.extractLsb' 8 8) = v := by
  have := v.isLt
  apply BitVec.eq_of_toNat_eq
  rw [toNat_ofLe16, toNat_byte, toNat_byte]
  omega

@[simp] theorem ofLe32_bytes (v : Word) :
    ofLe32 (v.extractLsb' 0 8) (v.extractLsb' 8 8) (v.extractLsb' 16 8) (v.extractLsb' 24 8) = v := by
  have := v.isLt
  apply BitVec.eq_of_toNat_eq
  rw [toNat_ofLe32]
  simp only [toNat_byte]
  omega

/-! ## The masks of the opcode table -/

theorem and_maskZ (w : Word) : w &&& 0xFFFFFFFF#32 = w := BitVec.and_allOnes

theorem toNat_and_maskU16 (w : Word) : (w &&& 0xFFFF0000#32).toNat = w.toNat / 2 ^ 16 * 2 ^ 16 := by
  have h := congrArg BitVec.toNat (BitVec.shiftLeft_ushiftRight (x := w) (n := 16))
  have := w.isLt
  simp only [BitVec.toNat_shiftLeft, BitVec.toNat_ushiftRight, Nat.shiftRight_eq_div_pow, Nat.shiftLeft_eq] at h
  rw [show (0xFFFF0000#32) = BitVec.allOnes 32 <<< 16 by decide, ← h]
  omega

theorem toNat_and_maskL12 (w : Word) : (w &&& 0xFFFFF000#32).toNat = w.toNat / 2 ^ 12 * 2 ^ 12 := by
  have h := congrArg BitVec.toNat (BitVec.shiftLeft_ushiftRight (x := w) (n := 12))
  have := w.isLt
  simp only [BitVec.toNat_shiftLeft, BitVec.toNat_ushiftRight, Nat.shiftRight_eq_div_pow, Nat.shiftLeft_eq] at h
  rw [show (0xFFFFF000#32) = BitVec.allOnes 32 <<< 12 by decide, ← h]
  omega

/-! ## The decoder -/

theorem formatZ_ok {arg : Half} {i j : Instr} (h : formatZ arg i = .ok j) : arg = 0 ∧ j = i := by
  unfold formatZ at h
  split at h
  · cases h; exact ⟨‹_›, rfl⟩
  · cases h

theorem formatL12_ok {arg : Half} {f : Level → Instr} {j : Instr} (h : formatL12 arg f = .ok j) :
    arg.extractLsb' 12 4 = 0 ∧ j = f (arg.extractLsb' 0 12) := by
  unfold formatL12 at h
  split at h
  · cases h; exact ⟨‹_›, rfl⟩
  · cases h

theorem formatU16_ok {arg : Half} {f : Half → Instr} {j : Instr} (h : formatU16 arg f = .ok j) : j = f arg := by
  cases h; rfl

theorem formatN16_ok {arg : Half} {f : Half → Instr} {j : Instr} (h : formatN16 arg f = .ok j) :
    arg ≠ 0 ∧ j = f arg := by
  unfold formatN16 at h
  split at h
  · cases h
  · cases h; exact ⟨‹_›, rfl⟩

/-- Decoding a packed word is decoding its operation code and operand. -/
theorem decode_packWord (op : Byte) (arg : Half) : decode (packWord op arg) = decodeOp op arg := by
  simp [decode]

/-- A word that decodes has `rsv` = 0, and its operation code and operand decode. -/
theorem decode_ok {w : Word} {i : Instr} (h : decode w = .ok i) : rsvOf w = 0 ∧ decodeOp (opOf w) (argOf w) = .ok i := by
  unfold decode at h
  split at h
  · exact ⟨‹_›, h⟩
  · cases h

end Sys2Proof
end

