-- ==== Sys2Proof/Laws/State.lean ====
section
/-! SUPPORT. One lemma per field for each named update of the state, true by rfl, so that no later proof unfolds a
record update. -/

namespace Sys2Proof.Machine

/-! ## `State.complete` -/

@[simp] theorem complete_result (r : Word) (s : State) : (s.complete r).result = r := rfl
@[simp] theorem complete_status (r : Word) (s : State) :
    (s.complete r).status = { s.status with ok := true, cause := .none } := rfl
@[simp] theorem complete_target (r : Word) (s : State) : (s.complete r).target = s.target := rfl
@[simp] theorem complete_acc (r : Word) (s : State) : (s.complete r).acc = s.acc := rfl
@[simp] theorem complete_output (r : Word) (s : State) : (s.complete r).output = s.output := rfl
@[simp] theorem complete_hist (r : Word) (s : State) : (s.complete r).hist = s.hist := rfl
@[simp] theorem complete_corr (r : Word) (s : State) : (s.complete r).corr = s.corr := rfl
@[simp] theorem complete_codeMin (r : Word) (s : State) : (s.complete r).codeMin = s.codeMin := rfl
@[simp] theorem complete_codeMax (r : Word) (s : State) : (s.complete r).codeMax = s.codeMax := rfl
@[simp] theorem complete_magic (r : Word) (s : State) : (s.complete r).magic = s.magic := rfl
@[simp] theorem complete_numSweeps (r : Word) (s : State) : (s.complete r).numSweeps = s.numSweeps := rfl
@[simp] theorem complete_samplesPerLevel (r : Word) (s : State) : (s.complete r).samplesPerLevel = s.samplesPerLevel := rfl
@[simp] theorem complete_settleTicks (r : Word) (s : State) : (s.complete r).settleTicks = s.settleTicks := rfl
@[simp] theorem complete_seq (r : Word) (s : State) : (s.complete r).seq = s.seq := rfl
@[simp] theorem complete_recbuf (r : Word) (s : State) : (s.complete r).recbuf = s.recbuf := rfl
@[simp] theorem complete_env (r : Word) (s : State) : (s.complete r).env = s.env := rfl

/-! ## `State.raise` -/

@[simp] theorem raise_result (c : Cause) (s : State) : (s.raise c).result = 0 := rfl
@[simp] theorem raise_status (c : Cause) (s : State) :
    (s.raise c).status = { ok := false, ill := s.status.ill || c == .illegalCommand, cause := c } := rfl
@[simp] theorem raise_target (c : Cause) (s : State) : (s.raise c).target = s.target := rfl
@[simp] theorem raise_acc (c : Cause) (s : State) : (s.raise c).acc = s.acc := rfl
@[simp] theorem raise_output (c : Cause) (s : State) : (s.raise c).output = s.output := rfl
@[simp] theorem raise_hist (c : Cause) (s : State) : (s.raise c).hist = s.hist := rfl
@[simp] theorem raise_corr (c : Cause) (s : State) : (s.raise c).corr = s.corr := rfl
@[simp] theorem raise_codeMin (c : Cause) (s : State) : (s.raise c).codeMin = s.codeMin := rfl
@[simp] theorem raise_codeMax (c : Cause) (s : State) : (s.raise c).codeMax = s.codeMax := rfl
@[simp] theorem raise_magic (c : Cause) (s : State) : (s.raise c).magic = s.magic := rfl
@[simp] theorem raise_numSweeps (c : Cause) (s : State) : (s.raise c).numSweeps = s.numSweeps := rfl
@[simp] theorem raise_samplesPerLevel (c : Cause) (s : State) : (s.raise c).samplesPerLevel = s.samplesPerLevel := rfl
@[simp] theorem raise_settleTicks (c : Cause) (s : State) : (s.raise c).settleTicks = s.settleTicks := rfl
@[simp] theorem raise_seq (c : Cause) (s : State) : (s.raise c).seq = s.seq := rfl
@[simp] theorem raise_recbuf (c : Cause) (s : State) : (s.raise c).recbuf = s.recbuf := rfl
@[simp] theorem raise_env (c : Cause) (s : State) : (s.raise c).env = s.env := rfl

/-! ## `State.clearIll` -/

@[simp] theorem clearIll_status (s : State) : s.clearIll.status = { s.status with ill := false } := rfl
@[simp] theorem clearIll_target (s : State) : (s.clearIll).target = s.target := rfl
@[simp] theorem clearIll_acc (s : State) : (s.clearIll).acc = s.acc := rfl
@[simp] theorem clearIll_output (s : State) : (s.clearIll).output = s.output := rfl
@[simp] theorem clearIll_hist (s : State) : (s.clearIll).hist = s.hist := rfl
@[simp] theorem clearIll_corr (s : State) : (s.clearIll).corr = s.corr := rfl
@[simp] theorem clearIll_codeMin (s : State) : (s.clearIll).codeMin = s.codeMin := rfl
@[simp] theorem clearIll_codeMax (s : State) : (s.clearIll).codeMax = s.codeMax := rfl
@[simp] theorem clearIll_magic (s : State) : (s.clearIll).magic = s.magic := rfl
@[simp] theorem clearIll_result (s : State) : (s.clearIll).result = s.result := rfl
@[simp] theorem clearIll_numSweeps (s : State) : (s.clearIll).numSweeps = s.numSweeps := rfl
@[simp] theorem clearIll_samplesPerLevel (s : State) : (s.clearIll).samplesPerLevel = s.samplesPerLevel := rfl
@[simp] theorem clearIll_settleTicks (s : State) : (s.clearIll).settleTicks = s.settleTicks := rfl
@[simp] theorem clearIll_seq (s : State) : (s.clearIll).seq = s.seq := rfl
@[simp] theorem clearIll_recbuf (s : State) : (s.clearIll).recbuf = s.recbuf := rfl
@[simp] theorem clearIll_env (s : State) : (s.clearIll).env = s.env := rfl

/-! ## `State.recStore` -/

@[simp] theorem recStore_recbuf (a : Nat) (bytes : List Byte) (s : State) :
    (s.recStore a bytes).recbuf = Memory.store s.env.resets s.recbuf a bytes := rfl
@[simp] theorem recStore_target (a : Nat) (bytes : List Byte) (s : State) : (s.recStore a bytes).target = s.target := rfl
@[simp] theorem recStore_acc (a : Nat) (bytes : List Byte) (s : State) : (s.recStore a bytes).acc = s.acc := rfl
@[simp] theorem recStore_output (a : Nat) (bytes : List Byte) (s : State) : (s.recStore a bytes).output = s.output := rfl
@[simp] theorem recStore_hist (a : Nat) (bytes : List Byte) (s : State) : (s.recStore a bytes).hist = s.hist := rfl
@[simp] theorem recStore_corr (a : Nat) (bytes : List Byte) (s : State) : (s.recStore a bytes).corr = s.corr := rfl
@[simp] theorem recStore_codeMin (a : Nat) (bytes : List Byte) (s : State) : (s.recStore a bytes).codeMin = s.codeMin := rfl
@[simp] theorem recStore_codeMax (a : Nat) (bytes : List Byte) (s : State) : (s.recStore a bytes).codeMax = s.codeMax := rfl
@[simp] theorem recStore_magic (a : Nat) (bytes : List Byte) (s : State) : (s.recStore a bytes).magic = s.magic := rfl
@[simp] theorem recStore_result (a : Nat) (bytes : List Byte) (s : State) : (s.recStore a bytes).result = s.result := rfl
@[simp] theorem recStore_status (a : Nat) (bytes : List Byte) (s : State) : (s.recStore a bytes).status = s.status := rfl
@[simp] theorem recStore_numSweeps (a : Nat) (bytes : List Byte) (s : State) : (s.recStore a bytes).numSweeps = s.numSweeps := rfl
@[simp] theorem recStore_samplesPerLevel (a : Nat) (bytes : List Byte) (s : State) : (s.recStore a bytes).samplesPerLevel = s.samplesPerLevel := rfl
@[simp] theorem recStore_settleTicks (a : Nat) (bytes : List Byte) (s : State) : (s.recStore a bytes).settleTicks = s.settleTicks := rfl
@[simp] theorem recStore_seq (a : Nat) (bytes : List Byte) (s : State) : (s.recStore a bytes).seq = s.seq := rfl
@[simp] theorem recStore_env (a : Nat) (bytes : List Byte) (s : State) : (s.recStore a bytes).env = s.env := rfl

/-! ## `serializerTurn` -/

@[simp] theorem serializerTurn_output (s : State) :
    (serializerTurn s).output = Output.run s.env.turnLength s.output := rfl
@[simp] theorem serializerTurn_env (s : State) : (serializerTurn s).env = s.env.afterTurn := rfl
@[simp] theorem serializerTurn_target (s : State) : (serializerTurn s).target = s.target := rfl
@[simp] theorem serializerTurn_acc (s : State) : (serializerTurn s).acc = s.acc := rfl
@[simp] theorem serializerTurn_hist (s : State) : (serializerTurn s).hist = s.hist := rfl
@[simp] theorem serializerTurn_corr (s : State) : (serializerTurn s).corr = s.corr := rfl
@[simp] theorem serializerTurn_codeMin (s : State) : (serializerTurn s).codeMin = s.codeMin := rfl
@[simp] theorem serializerTurn_codeMax (s : State) : (serializerTurn s).codeMax = s.codeMax := rfl
@[simp] theorem serializerTurn_magic (s : State) : (serializerTurn s).magic = s.magic := rfl
@[simp] theorem serializerTurn_result (s : State) : (serializerTurn s).result = s.result := rfl
@[simp] theorem serializerTurn_status (s : State) : (serializerTurn s).status = s.status := rfl
@[simp] theorem serializerTurn_numSweeps (s : State) : (serializerTurn s).numSweeps = s.numSweeps := rfl
@[simp] theorem serializerTurn_samplesPerLevel (s : State) : (serializerTurn s).samplesPerLevel = s.samplesPerLevel := rfl
@[simp] theorem serializerTurn_settleTicks (s : State) : (serializerTurn s).settleTicks = s.settleTicks := rfl
@[simp] theorem serializerTurn_seq (s : State) : (serializerTurn s).seq = s.seq := rfl
@[simp] theorem serializerTurn_recbuf (s : State) : (serializerTurn s).recbuf = s.recbuf := rfl

/-! ## `feedAttempt` -/

@[simp] theorem feedAttempt_target (s : State) : ((feedAttempt s).2).target = s.target := rfl
@[simp] theorem feedAttempt_hist (s : State) : ((feedAttempt s).2).hist = s.hist := rfl
@[simp] theorem feedAttempt_corr (s : State) : ((feedAttempt s).2).corr = s.corr := rfl
@[simp] theorem feedAttempt_codeMin (s : State) : ((feedAttempt s).2).codeMin = s.codeMin := rfl
@[simp] theorem feedAttempt_codeMax (s : State) : ((feedAttempt s).2).codeMax = s.codeMax := rfl
@[simp] theorem feedAttempt_magic (s : State) : ((feedAttempt s).2).magic = s.magic := rfl
@[simp] theorem feedAttempt_result (s : State) : ((feedAttempt s).2).result = s.result := rfl
@[simp] theorem feedAttempt_status (s : State) : ((feedAttempt s).2).status = s.status := rfl
@[simp] theorem feedAttempt_numSweeps (s : State) : ((feedAttempt s).2).numSweeps = s.numSweeps := rfl
@[simp] theorem feedAttempt_samplesPerLevel (s : State) : ((feedAttempt s).2).samplesPerLevel = s.samplesPerLevel := rfl
@[simp] theorem feedAttempt_settleTicks (s : State) : ((feedAttempt s).2).settleTicks = s.settleTicks := rfl
@[simp] theorem feedAttempt_seq (s : State) : ((feedAttempt s).2).seq = s.seq := rfl
@[simp] theorem feedAttempt_recbuf (s : State) : ((feedAttempt s).2).recbuf = s.recbuf := rfl
@[simp] theorem feedAttempt_env (s : State) : ((feedAttempt s).2).env = s.env := rfl

/-! ## `drawAdc` -/

@[simp] theorem drawAdc_value (s : State) : (drawAdc s).1 = s.env.answer 0 := rfl
@[simp] theorem drawAdc_env (s : State) : (drawAdc s).2.env = s.env.afterDraw := rfl
@[simp] theorem drawAdc_target (s : State) : ((drawAdc s).2).target = s.target := rfl
@[simp] theorem drawAdc_acc (s : State) : ((drawAdc s).2).acc = s.acc := rfl
@[simp] theorem drawAdc_output (s : State) : ((drawAdc s).2).output = s.output := rfl
@[simp] theorem drawAdc_hist (s : State) : ((drawAdc s).2).hist = s.hist := rfl
@[simp] theorem drawAdc_corr (s : State) : ((drawAdc s).2).corr = s.corr := rfl
@[simp] theorem drawAdc_codeMin (s : State) : ((drawAdc s).2).codeMin = s.codeMin := rfl
@[simp] theorem drawAdc_codeMax (s : State) : ((drawAdc s).2).codeMax = s.codeMax := rfl
@[simp] theorem drawAdc_magic (s : State) : ((drawAdc s).2).magic = s.magic := rfl
@[simp] theorem drawAdc_result (s : State) : ((drawAdc s).2).result = s.result := rfl
@[simp] theorem drawAdc_status (s : State) : ((drawAdc s).2).status = s.status := rfl
@[simp] theorem drawAdc_numSweeps (s : State) : ((drawAdc s).2).numSweeps = s.numSweeps := rfl
@[simp] theorem drawAdc_samplesPerLevel (s : State) : ((drawAdc s).2).samplesPerLevel = s.samplesPerLevel := rfl
@[simp] theorem drawAdc_settleTicks (s : State) : ((drawAdc s).2).settleTicks = s.settleTicks := rfl
@[simp] theorem drawAdc_seq (s : State) : ((drawAdc s).2).seq = s.seq := rfl
@[simp] theorem drawAdc_recbuf (s : State) : ((drawAdc s).2).recbuf = s.recbuf := rfl

/-! ## `sample` -/

@[simp] theorem sample_env (s : State) : (sample s).2.env = s.env.afterTurn.afterDraw := rfl
@[simp] theorem sample_target (s : State) : ((sample s).2).target = s.target := rfl
@[simp] theorem sample_hist (s : State) : ((sample s).2).hist = s.hist := rfl
@[simp] theorem sample_corr (s : State) : ((sample s).2).corr = s.corr := rfl
@[simp] theorem sample_codeMin (s : State) : ((sample s).2).codeMin = s.codeMin := rfl
@[simp] theorem sample_codeMax (s : State) : ((sample s).2).codeMax = s.codeMax := rfl
@[simp] theorem sample_magic (s : State) : ((sample s).2).magic = s.magic := rfl
@[simp] theorem sample_result (s : State) : ((sample s).2).result = s.result := rfl
@[simp] theorem sample_status (s : State) : ((sample s).2).status = s.status := rfl
@[simp] theorem sample_numSweeps (s : State) : ((sample s).2).numSweeps = s.numSweeps := rfl
@[simp] theorem sample_samplesPerLevel (s : State) : ((sample s).2).samplesPerLevel = s.samplesPerLevel := rfl
@[simp] theorem sample_settleTicks (s : State) : ((sample s).2).settleTicks = s.settleTicks := rfl
@[simp] theorem sample_seq (s : State) : ((sample s).2).seq = s.seq := rfl
@[simp] theorem sample_recbuf (s : State) : ((sample s).2).recbuf = s.recbuf := rfl

/-! ## `record` -/

@[simp] theorem record_target (v : Half) (s : State) : (record v s).target = s.target := rfl
@[simp] theorem record_acc (v : Half) (s : State) : (record v s).acc = s.acc := rfl
@[simp] theorem record_output (v : Half) (s : State) : (record v s).output = s.output := rfl
@[simp] theorem record_corr (v : Half) (s : State) : (record v s).corr = s.corr := rfl
@[simp] theorem record_codeMin (v : Half) (s : State) : (record v s).codeMin = s.codeMin := rfl
@[simp] theorem record_codeMax (v : Half) (s : State) : (record v s).codeMax = s.codeMax := rfl
@[simp] theorem record_magic (v : Half) (s : State) : (record v s).magic = s.magic := rfl
@[simp] theorem record_result (v : Half) (s : State) : (record v s).result = s.result := rfl
@[simp] theorem record_status (v : Half) (s : State) : (record v s).status = s.status := rfl
@[simp] theorem record_numSweeps (v : Half) (s : State) : (record v s).numSweeps = s.numSweeps := rfl
@[simp] theorem record_samplesPerLevel (v : Half) (s : State) : (record v s).samplesPerLevel = s.samplesPerLevel := rfl
@[simp] theorem record_settleTicks (v : Half) (s : State) : (record v s).settleTicks = s.settleTicks := rfl
@[simp] theorem record_seq (v : Half) (s : State) : (record v s).seq = s.seq := rfl
@[simp] theorem record_recbuf (v : Half) (s : State) : (record v s).recbuf = s.recbuf := rfl
@[simp] theorem record_env (v : Half) (s : State) : (record v s).env = s.env := rfl

end Sys2Proof.Machine
end

