-- ==== Sys2Proof/Laws/Ops.lean ====
section
/-! SUPPORT. What the shared operations do, said once: tables, the environment, the feed attempt, the serializer's
steps, the sample and the increment. -/

namespace Sys2Proof.Machine

/-! ## Tables -/

theorem getD_tabulate {α : Type} (n : Nat) (f : Nat → α) (i : Nat) (d : α) (h : i < n) :
    (tabulate n f).getD i d = f i := by
  simp [Vector.getD, tabulate, h]

theorem getD_of_ge {α : Type} {n : Nat} (v : Vector α n) (i : Nat) (d : α) (h : n ≤ i) : v.getD i d = d := by
  simp [Vector.getD, Nat.not_lt.mpr h]

theorem getD_replicate {α : Type} (n : Nat) (a : α) (i : Nat) (d : α) (h : i < n) :
    (Vector.replicate n a).getD i d = a := by
  simp [Vector.getD, h]

/-- Two tables with the same entries are the same table. -/
theorem vector_ext_getD {α : Type} {n : Nat} {v w : Vector α n} (d : α) (h : ∀ i, i < n → v.getD i d = w.getD i d) :
    v = w := by
  apply Vector.ext
  intro i hi
  simpa [Vector.getD, hi] using h i hi

theorem getD_setIfInBounds {α : Type} {n : Nat} (v : Vector α n) (i j : Nat) (a d : α) (hi : i < n) :
    (v.setIfInBounds i a).getD j d = if j = i then a else v.getD j d := by
  by_cases hj : j < n
  · by_cases h : j = i
    · subst h
      simp [Vector.getD, hj]
    · simp [Vector.getD, hj, h, Ne.symm h]
  · simp [Vector.getD, hj, show j ≠ i by omega]

/-! ## The environment -/

@[simp] theorem afterTurn_host (e : Env) : e.afterTurn.host = e.host := rfl
@[simp] theorem afterTurn_adc (e : Env) : e.afterTurn.adc = e.adc := rfl
@[simp] theorem afterTurn_draws (e : Env) : e.afterTurn.draws = e.draws := rfl
@[simp] theorem afterTurn_uncal (e : Env) : e.afterTurn.uncal = e.uncal := rfl
@[simp] theorem afterTurn_resets (e : Env) : e.afterTurn.resets = e.resets := rfl
@[simp] theorem afterTurn_rdata (e : Env) : e.afterTurn.rdata = e.rdata := rfl
@[simp] theorem afterDraw_host (e : Env) : e.afterDraw.host = e.host := rfl
@[simp] theorem afterDraw_draws (e : Env) : e.afterDraw.draws = e.draws + 1 := rfl
@[simp] theorem afterDraw_schedule (e : Env) : e.afterDraw.schedule = e.schedule := rfl
@[simp] theorem afterDraw_turns (e : Env) : e.afterDraw.turns = e.turns := rfl
@[simp] theorem afterDraw_uncal (e : Env) : e.afterDraw.uncal = e.uncal := rfl
@[simp] theorem afterDraw_resets (e : Env) : e.afterDraw.resets = e.resets := rfl
@[simp] theorem afterDraw_rdata (e : Env) : e.afterDraw.rdata = e.rdata := rfl

/-- A serializer turn does not touch the converter's answers. -/
@[simp] theorem answer_afterTurn (e : Env) (i : Nat) : e.afterTurn.answer i = e.answer i := rfl

/-- After a read the converter's next answer is the one that was after it. -/
@[simp] theorem answer_afterDraw (e : Env) (i : Nat) : e.afterDraw.answer i = e.answer (i + 1) := by
  simp only [Env.answer, Env.afterDraw, List.getElem?_tail]
  rw [show e.draws + 1 + i = e.draws + (i + 1) by omega]

/-! ## The feed attempt (R84, R92) -/

/-- A feed attempt on a full queue answers none and changes nothing. -/
theorem feedAttempt_of_full {s : State} (h : s.qfull = true) : feedAttempt s = (none, s) := by
  simp [feedAttempt, h]

/-- A feed attempt with room queues the next word. -/
theorem feedAttempt_of_room {s : State} (h : s.qfull = false) :
    feedAttempt s = (some (genWord s.acc s.target).2,
      { s with acc := (genWord s.acc s.target).1,
               output := { s.output with q := s.output.q ++ [(genWord s.acc s.target).2] } }) := by
  simp [feedAttempt, h]

theorem qfull_iff (s : State) : s.qfull = true ↔ s.output.q.length = Config.qdepth := by
  simp [State.qfull]

/-- A feed attempt leaves the fill of the queue within its capacity. -/
theorem feedAttempt_queueFits {s : State} (h : s.output.q.length ≤ Config.qdepth) :
    (feedAttempt s).2.output.q.length ≤ Config.qdepth := by
  cases hf : s.qfull with
  | true => rw [feedAttempt_of_full hf]; exact h
  | false =>
    have : s.output.q.length ≠ Config.qdepth := fun hq => by rw [(qfull_iff s).mpr hq] at hf; cases hf
    rw [feedAttempt_of_room hf]
    simp only [List.length_append, List.length_singleton]
    omega

/-! ## The serializer (R89, R90) -/

theorem output_step_load {o : Output} {w : Word} {rest : List Word} (hc : o.srcnt = 0) (hq : o.q = w :: rest) :
    o.step = o.load w rest := by
  simp only [Output.step, hc, hq, if_true]

theorem output_step_shift {o : Output} (hc : o.srcnt ≠ 0) : o.step = o.shift := by
  simp only [Output.step, if_neg hc]

theorem output_step_starved {o : Output} (hc : o.srcnt = 0) (hq : o.q = []) : o.step = o := by
  simp only [Output.step, hc, hq, if_true]

/-- What one step of the serializer can be. -/
theorem output_step_cases (o : Output) :
    (∃ w rest, o.srcnt = 0 ∧ o.q = w :: rest ∧ o.step = o.load w rest) ∨
    (o.srcnt ≠ 0 ∧ o.step = o.shift) ∨ (o.srcnt = 0 ∧ o.q = [] ∧ o.step = o) := by
  by_cases hc : o.srcnt = 0
  · cases hq : o.q with
    | nil => exact .inr (.inr ⟨hc, rfl, output_step_starved hc hq⟩)
    | cons w rest => exact .inl ⟨w, rest, hc, rfl, output_step_load hc hq⟩
  · exact .inr (.inl ⟨hc, output_step_shift hc⟩)

theorem length_wordBits (w : Word) : (wordBits w).length = 32 := by simp [wordBits]

/-- The bits still held begin with bit 31 of the shift register. -/
theorem held_of_pos {o : Output} (hc : o.srcnt ≠ 0) :
    o.held = o.sr.getMsbD 0 :: (List.range (o.srcnt - 1)).map fun k => o.sr.getMsbD (k + 1) := by
  obtain ⟨n, hn⟩ := Nat.exists_eq_succ_of_ne_zero hc
  simp [Output.held, hn, List.range_succ_eq_map, Function.comp_def]

/-- Shifting the register left moves every held bit one place up. -/
theorem held_shift (o : Output) :
    o.shift.held = (List.range (o.srcnt - 1)).map fun k => o.sr.getMsbD (k + 1) := by
  simp only [Output.held, Output.shift]
  apply List.map_congr_left
  intro k hk
  have := List.mem_range.mp hk
  rw [BitVec.getMsbD_shiftLeft, Nat.add_comm]

/-- One serializer step loses no bit of the stream and changes no order (R50). -/
theorem stream_step (o : Output) : o.step.stream = o.stream := by
  rcases output_step_cases o with ⟨w, rest, hc, hq, hs⟩ | ⟨hc, hs⟩ | ⟨-, -, hs⟩
  · rw [hs]
    simp [Output.stream, Output.pending, Output.held, Output.load, hc, hq, wordBits]
  · rw [hs]
    simp only [Output.stream, Output.pending, held_shift o, held_of_pos hc]
    simp [Output.shift]
  · rw [hs]

theorem srcnt_step {o : Output} (h : o.srcnt ≤ 32) : o.step.srcnt ≤ 32 := by
  rcases output_step_cases o with ⟨w, rest, -, -, hs⟩ | ⟨-, hs⟩ | ⟨-, -, hs⟩
  · rw [hs]; exact Nat.le_refl 32
  · rw [hs]; simp only [Output.shift]; omega
  · rw [hs]; exact h

theorem q_step_length (o : Output) : o.step.q.length ≤ o.q.length := by
  rcases output_step_cases o with ⟨w, rest, -, hq, hs⟩ | ⟨-, hs⟩ | ⟨-, -, hs⟩
  · rw [hs, hq]; simp [Output.load]
  · rw [hs]; exact Nat.le_refl _
  · rw [hs]

/-- The bits driven so far are a beginning of those driven after a step. -/
theorem out_prefix_step (o : Output) : o.out <+: o.step.out := by
  rcases output_step_cases o with ⟨w, rest, -, -, hs⟩ | ⟨-, hs⟩ | ⟨-, -, hs⟩
  · rw [hs]; exact List.prefix_refl _
  · rw [hs]; exact List.prefix_append _ _
  · rw [hs]

/-- A step keeps the pin undriven while the output starves (assumption 8). -/
theorem starved_step {o : Output} (h : o.srcnt = 0 → o.q = [] → o.dout = .undriven) :
    o.step.srcnt = 0 → o.step.q = [] → o.step.dout = .undriven := by
  rcases output_step_cases o with ⟨w, rest, -, -, hs⟩ | ⟨hc, hs⟩ | ⟨-, -, hs⟩
  · rw [hs]; intro h0; simp [Output.load] at h0
  · rw [hs]
    intro h0 hq
    simp only [Output.shift] at h0 hq ⊢
    rw [if_pos ⟨by omega, hq⟩]
  · rw [hs]; exact h

/-! ## Runs of the serializer -/

theorem run_add (m n : Nat) (o : Output) : Output.run (m + n) o = Output.run n (Output.run m o) := by
  induction m generalizing o with
  | zero => simp [Output.run]
  | succ m ih =>
    rw [show m + 1 + n = (m + n) + 1 by omega]
    exact ih o.step

theorem stream_run (k : Nat) (o : Output) : (Output.run k o).stream = o.stream := by
  induction k generalizing o with
  | zero => rfl
  | succ k ih => exact (ih o.step).trans (stream_step o)

theorem out_prefix_run (k : Nat) (o : Output) : o.out <+: (Output.run k o).out := by
  induction k generalizing o with
  | zero => exact List.prefix_refl _
  | succ k ih => exact (out_prefix_step o).trans (ih o.step)

theorem q_run_length (k : Nat) (o : Output) : (Output.run k o).q.length ≤ o.q.length := by
  induction k generalizing o with
  | zero => exact Nat.le_refl _
  | succ k ih => exact (ih _).trans (q_step_length o)

theorem srcnt_run (k : Nat) {o : Output} (h : o.srcnt ≤ 32) : (Output.run k o).srcnt ≤ 32 := by
  induction k generalizing o with
  | zero => exact h
  | succ k ih => exact ih (srcnt_step h)

theorem starved_run (k : Nat) {o : Output} (h : o.srcnt = 0 → o.q = [] → o.dout = .undriven) :
    (Output.run k o).srcnt = 0 → (Output.run k o).q = [] → (Output.run k o).dout = .undriven := by
  induction k generalizing o with
  | zero => exact h
  | succ k ih => exact ih (starved_step h)

/-- A starved serializer stays as it is. -/
theorem run_starved (k : Nat) {o : Output} (hc : o.srcnt = 0) (hq : o.q = []) : Output.run k o = o := by
  induction k with
  | zero => rfl
  | succ k ih => rw [Output.run, output_step_starved hc hq, ih]

/-- As many steps as bits are held shift them all out and leave the queue. -/
theorem run_held (m : Nat) {o : Output} (h : o.srcnt = m) :
    (Output.run m o).srcnt = 0 ∧ (Output.run m o).q = o.q := by
  induction m generalizing o with
  | zero => exact ⟨h, rfl⟩
  | succ m ih =>
    rw [Output.run, output_step_shift (by omega)]
    exact ih (o := o.shift) (by simp [Output.shift, h])

/-! ## The serializer's turns (R49, R89) -/

/-- A turn that comes `r` turns before the next one with a step is followed by that one after `r` turns. -/
theorem turnPhase_add {n k r : Nat} (h : turnPhase n = (k, r)) : turnPhase (n + r) = (k, 0) := by
  induction r generalizing n with
  | zero => exact h
  | succ r ih => exact (congrArg turnPhase (show n + (r + 1) = n + 1 + r by omega)).trans (ih (by simp [turnPhase, h]))

theorem freeTurnLength_of_phase {n k : Nat} (h : turnPhase n = (k, 0)) :
    freeTurnLength n = Config.busyStepsPred k + 1 := by
  simp [freeTurnLength, h]

/-- The environment after `m` serializer turns. -/
theorem times_serializerTurn_env (m : Nat) (s : State) :
    (times serializerTurn m s).env =
      { s.env with schedule := s.env.schedule.drop m, turns := s.env.turns + m } := by
  induction m generalizing s with
  | zero => rfl
  | succ m ih =>
    rw [times, ih, show s.env.turns + (m + 1) = s.env.turns + 1 + m by omega, ← List.drop_tail]
    rfl

/-- Serializer turns change only the output path and the turn bookkeeping. -/
theorem times_serializerTurn_frame (m : Nat) (s : State) :
    times serializerTurn m s =
      { s with output := (times serializerTurn m s).output, env := (times serializerTurn m s).env } := by
  induction m generalizing s with
  | zero => rfl
  | succ m ih => exact ih (serializerTurn s)

/-! ## The modulator (R82, R83) -/

theorem toNat_increment (t : Level) : (increment t).toNat = t.toNat * 2 ^ 20 := by
  have := t.isLt
  simp [increment, Config.tshift, BitVec.toNat_shiftLeft, Nat.shiftLeft_eq]
  try omega

theorem toNat_modStep_acc (inc : Word) (p : Word × Word) (k : Nat) :
    (modStep inc p k).1.toNat = (p.1.toNat + inc.toNat) % 2 ^ 32 := by
  have := p.1.isLt
  have := inc.isLt
  simp [modStep, BitVec.toNat_add]

/-- The carry out of the 33-bit sum. -/
theorem carry_eq (inc : Word) (p : Word × Word) :
    (p.1.setWidth 33 + inc.setWidth 33 : BitVec 33).getLsbD 32 = decide (2 ^ 32 ≤ p.1.toNat + inc.toNat) := by
  have := p.1.isLt
  have := inc.isLt
  rw [BitVec.getLsbD, Nat.testBit, BitVec.toNat_add]
  simp [Nat.shiftRight_eq_div_pow]
  by_cases h : 4294967296 ≤ p.1.toNat + inc.toNat
  · simp [h]
    omega
  · simp [h]
    omega

/-- Step `k` writes its carry to bit `31 - k` and leaves every other bit. -/
theorem modStep_bit (inc : Word) (p : Word × Word) {k j : Nat} (hk : k < 32) (hj : j < 32) :
    (modStep inc p k).2.getLsbD (31 - j) =
      (p.2.getLsbD (31 - j) || (decide (j = k) && decide (2 ^ 32 ≤ p.1.toNat + inc.toNat))) := by
  simp only [modStep, carry_eq]
  by_cases h : 2 ^ 32 ≤ p.1.toNat + inc.toNat
  · simp only [h, decide_true, if_true, BitVec.getLsbD_or, BitVec.getLsbD_shiftLeft]
    congr 1
    by_cases hjk : j = k
    · subst hjk
      simp
      omega
    · simp [hjk]
      intro h1 h2
      omega
  · simp only [h, decide_false, Bool.and_false, Bool.or_false]
    rfl

/-- The pair after the first `k` steps of a word. -/
def modAfter (inc acc : Word) (k : Nat) : Word × Word := (List.range k).foldl (modStep inc) (acc, 0)

theorem genWord_eq (acc : Word) (t : Level) : genWord acc t = modAfter (increment t) acc 32 := rfl

theorem modAfter_succ (inc acc : Word) (k : Nat) : modAfter inc acc (k + 1) = modStep inc (modAfter inc acc k) k := by
  simp [modAfter, List.range_succ]

theorem toNat_modAfter_acc (inc acc : Word) (k : Nat) :
    (modAfter inc acc k).1.toNat = (acc.toNat + k * inc.toNat) % 2 ^ 32 := by
  induction k with
  | zero =>
    have := acc.isLt
    simp [modAfter]
    omega
  | succ k ih =>
    rw [modAfter_succ, toNat_modStep_acc, ih, Nat.succ_mul]
    omega

theorem modAfter_bit (inc acc : Word) {k j : Nat} (hk : k ≤ 32) (hj : j < 32) :
    (modAfter inc acc k).2.getLsbD (31 - j) =
      (decide (j < k) && decide (2 ^ 32 ≤ (acc.toNat + j * inc.toNat) % 2 ^ 32 + inc.toNat)) := by
  induction k with
  | zero => simp [modAfter]
  | succ k ih =>
    rw [modAfter_succ, modStep_bit _ _ (by omega) hj, ih (by omega), toNat_modAfter_acc]
    by_cases hjk : j = k
    · subst hjk
      simp
    · simp [hjk, show (j < k + 1) ↔ j < k by omega]

/-! ## The stream and the queue -/

/-- The stream after a feed attempt: the word's bits are appended when there was room. -/
theorem stream_feedAttempt (s : State) :
    (feedAttempt s).2.output.stream =
      s.output.stream ++ (if s.qfull then [] else wordBits (genWord s.acc s.target).2) := by
  cases hf : s.qfull with
  | true => simp [feedAttempt_of_full hf]
  | false =>
    rw [feedAttempt_of_room hf]
    simp [Output.stream, Output.pending, Output.held]

/-! ## The increment (R112, R118) -/

theorem histAt_record (v : Half) (s : State) (i : Nat) :
    (record v s).histAt i = if i = v.toNat ∧ v.toNat ≤ 4095 then s.histAt i + 1 else s.histAt i := by
  simp only [record, State.histAt]
  by_cases hv : v.toNat ≤ 4095
  · rw [if_pos hv, getD_setIfInBounds _ _ _ _ _ (by omega)]
    by_cases h : i = v.toNat
    · simp [h, hv]
    · simp [h]
  · simp [hv]

end Sys2Proof.Machine
end

