-- ==== Sys2Proof/Laws/Sequencer.lean ====
section
/-! SUPPORT. The sequencer: what each of its steps does, and the run of one level visit of `HST.COLLECT`. -/

namespace Sys2Proof.Machine

/-! ## One step -/

theorem seqStep_of_idle {s : State} (h : s.seq = .idle) : seqStep s = s := by
  simp only [seqStep, h]

theorem seqStep_settle {s : State} {ns spl st pass t : Nat} {level : Level}
    (h : s.seq = .collect ns spl st pass level (.settle t)) (ht : t < st) :
    seqStep s = { settleTick s with seq := .collect ns spl st pass level (.settle (t + 1)) } := by
  simp only [seqStep, h, if_pos ht]

theorem seqStep_settled {s : State} {ns spl st pass t : Nat} {level : Level}
    (h : s.seq = .collect ns spl st pass level (.settle t)) (ht : st ≤ t) :
    seqStep s = { s with seq := .collect ns spl st pass level (.sample 0) } := by
  simp only [seqStep, h, if_neg (Nat.not_lt.mpr ht)]

theorem seqStep_sample {s : State} {ns spl st pass k : Nat} {level : Level}
    (h : s.seq = .collect ns spl st pass level (.sample k)) (hk : k < spl) :
    seqStep s = { collectSample s with seq := .collect ns spl st pass level (.sample (k + 1)) } := by
  simp only [seqStep, h, if_pos hk]

theorem seqStep_sampled {s : State} {ns spl st pass k : Nat} {level : Level}
    (h : s.seq = .collect ns spl st pass level (.sample k)) (hk : spl ≤ k) :
    seqStep s = leaveVisit ns spl st pass level s := by
  simp only [seqStep, h, if_neg (Nat.not_lt.mpr hk)]

theorem seqStep_avg {s : State} {n sum count : Nat} (h : s.seq = .avg n sum count) (hc : count < n) :
    seqStep s = avgSample n sum count s := by
  simp only [seqStep, h, if_pos hc]

theorem seqStep_avgDone {s : State} {n sum count : Nat} (h : s.seq = .avg n sum count) (hc : n ≤ count) :
    seqStep s = finishAvg n sum s := by
  simp only [seqStep, h, if_neg (Nat.not_lt.mpr hc)]

/-- Everything a step of the sequencer can be. -/
theorem seqStep_cases (s : State) :
    (s.seq = .idle ∧ seqStep s = s) ∨
    (∃ ns spl st pass level t, s.seq = .collect ns spl st pass level (.settle t) ∧ t < st ∧
      seqStep s = { settleTick s with seq := .collect ns spl st pass level (.settle (t + 1)) }) ∨
    (∃ ns spl st pass level t, s.seq = .collect ns spl st pass level (.settle t) ∧ st ≤ t ∧
      seqStep s = { s with seq := .collect ns spl st pass level (.sample 0) }) ∨
    (∃ ns spl st pass level k, s.seq = .collect ns spl st pass level (.sample k) ∧ k < spl ∧
      seqStep s = { collectSample s with seq := .collect ns spl st pass level (.sample (k + 1)) }) ∨
    (∃ ns spl st pass level k, s.seq = .collect ns spl st pass level (.sample k) ∧ spl ≤ k ∧
      seqStep s = leaveVisit ns spl st pass level s) ∨
    (∃ n sum count, s.seq = .avg n sum count ∧ count < n ∧ seqStep s = avgSample n sum count s) ∨
    (∃ n sum count, s.seq = .avg n sum count ∧ n ≤ count ∧ seqStep s = finishAvg n sum s) := by
  cases h : s.seq with
  | idle => exact .inl ⟨rfl, seqStep_of_idle h⟩
  | collect ns spl st pass level phase =>
    cases phase with
    | settle t =>
      by_cases ht : t < st
      · exact .inr (.inl ⟨ns, spl, st, pass, level, t, rfl, ht, seqStep_settle h ht⟩)
      · have ht := Nat.not_lt.mp ht
        exact .inr (.inr (.inl ⟨ns, spl, st, pass, level, t, rfl, ht, seqStep_settled h ht⟩))
    | sample k =>
      by_cases hk : k < spl
      · exact .inr (.inr (.inr (.inl ⟨ns, spl, st, pass, level, k, rfl, hk, seqStep_sample h hk⟩)))
      · have hk := Nat.not_lt.mp hk
        exact .inr (.inr (.inr (.inr (.inl ⟨ns, spl, st, pass, level, k, rfl, hk, seqStep_sampled h hk⟩))))
  | avg n sum count =>
    by_cases hc : count < n
    · exact .inr (.inr (.inr (.inr (.inr (.inl ⟨n, sum, count, rfl, hc, seqStep_avg h hc⟩)))))
    · have hc := Nat.not_lt.mp hc
      exact .inr (.inr (.inr (.inr (.inr (.inr ⟨n, sum, count, rfl, hc, seqStep_avgDone h hc⟩)))))

/-- What leaving a visit can be. -/
theorem leaveVisit_cases (ns spl st pass : Nat) (level : Level) (s : State) :
    (∃ pass' level', nextVisit ns pass level = some (pass', level') ∧
      leaveVisit ns spl st pass level s = enterVisit ns spl st pass' level' s) ∨
    (nextVisit ns pass level = none ∧ leaveVisit ns spl st pass level s = finishCollect s) := by
  cases h : nextVisit ns pass level with
  | none => exact .inr ⟨rfl, by simp only [leaveVisit, h]⟩
  | some p => exact .inl ⟨p.1, p.2, rfl, by simp only [leaveVisit, h]⟩

/-! ## Runs -/

theorem seqRun_add (m n : Nat) (s : State) : seqRun (m + n) s = seqRun n (seqRun m s) := by
  induction m generalizing s with
  | zero => simp [seqRun]
  | succ m ih =>
    rw [show m + 1 + n = (m + n) + 1 by omega]
    exact ih (seqStep s)

theorem seqRun_of_idle {s : State} (h : s.seq = .idle) (k : Nat) : seqRun k s = s := by
  induction k with
  | zero => rfl
  | succ k ih => rw [seqRun, seqStep_of_idle h, ih]

theorem times_succ (f : State → State) (n : Nat) (s : State) : times f (n + 1) s = times f n (f s) := rfl

/-- An operation that does not look at `SEQ` and leaves it alone does so any number of times. -/
theorem times_withSeq {f : State → State} (hf : ∀ s x, f { s with seq := x } = { f s with seq := x }) (n : Nat) (s : State)
    (x : Seq) : times f n { s with seq := x } = { times f n s with seq := x } := by
  induction n generalizing s with
  | zero => rfl
  | succ n ih => rw [times_succ, times_succ, hf, ih]

theorem settleTick_withSeq (s : State) (x : Seq) : settleTick { s with seq := x } = { settleTick s with seq := x } := rfl

theorem collectSample_withSeq (s : State) (x : Seq) :
    collectSample { s with seq := x } = { collectSample s with seq := x } := rfl

theorem leaveVisit_withSeq (ns spl st pass : Nat) (level : Level) (s : State) (x : Seq) :
    leaveVisit ns spl st pass level { s with seq := x } = leaveVisit ns spl st pass level s := by
  unfold leaveVisit
  split <;> rfl

theorem visit_withSeq (spl st : Nat) (level : Level) (s : State) (x : Seq) :
    visit spl st level { s with seq := x } = { visit spl st level s with seq := x } := by
  unfold visit
  rw [← times_withSeq collectSample_withSeq, ← times_withSeq settleTick_withSeq]

/-- The settle phase from tick `t` on: the remaining feed attempts, then the sample phase. -/
theorem seqRun_settle {ns spl st pass : Nat} {level : Level} (m : Nat) (t : Nat) (s : State)
    (h : s.seq = .collect ns spl st pass level (.settle t)) (ht : t + m = st) :
    seqRun (m + 1) s = { times settleTick m s with seq := .collect ns spl st pass level (.sample 0) } := by
  induction m generalizing t s with
  | zero => rw [seqRun, seqRun, seqStep_settled h (by omega)]; rfl
  | succ m ih =>
    rw [seqRun, seqStep_settle h (by omega), ih (t + 1) _ rfl (by omega), times_succ, times_withSeq settleTick_withSeq]

/-- The sample phase from count `k` on: the remaining samples, then the visit is left. -/
theorem seqRun_sample {ns spl st pass : Nat} {level : Level} (m : Nat) (k : Nat) (s : State)
    (h : s.seq = .collect ns spl st pass level (.sample k)) (hk : k + m = spl) :
    seqRun (m + 1) s = leaveVisit ns spl st pass level (times collectSample m s) := by
  induction m generalizing k s with
  | zero => rw [seqRun, seqRun, seqStep_sampled h (by omega)]; rfl
  | succ m ih =>
    rw [seqRun, seqStep_sample h (by omega), ih (k + 1) _ rfl (by omega), times_succ, times_withSeq collectSample_withSeq,
      leaveVisit_withSeq]

/-- One level visit: `st + spl + 2` steps of the sequencer are the loop body of R114. -/
theorem seqRun_visit (ns spl st pass : Nat) (level : Level) (s : State) :
    seqRun (st + spl + 2) (enterVisit ns spl st pass level s) =
      leaveVisit ns spl st pass level (visit spl st level s) := by
  rw [show st + spl + 2 = (st + 1) + (spl + 1) by omega, seqRun_add, seqRun_settle st 0 _ rfl (by omega),
    seqRun_sample spl 0 _ rfl (by omega), times_withSeq collectSample_withSeq, leaveVisit_withSeq]
  have : enterVisit ns spl st pass level s =
      { ({ s with target := level } : State) with seq := .collect ns spl st pass level (.settle 0) } := rfl
  rw [this, times_withSeq settleTick_withSeq, times_withSeq collectSample_withSeq, leaveVisit_withSeq]
  rfl

/-! ## The visits of a pass -/

theorem toNat_visitLevel (pass : Nat) {j : Nat} (hj : j < 4096) :
    (visitLevel pass j).toNat = if pass % 2 = 0 then j else 4095 - j := by
  unfold visitLevel
  rw [BitVec.toNat_ofNat, Nat.mod_eq_of_lt]
  split <;> omega

/-- After a visit that is not the last of its pass comes the pass's next one. -/
theorem nextVisit_of_lt (ns pass : Nat) {j : Nat} (hj : j < 4095) :
    nextVisit ns pass (visitLevel pass j) = some (pass, visitLevel pass (j + 1)) := by
  have h1 := toNat_visitLevel pass (j := j) (by omega)
  have h2 := toNat_visitLevel pass (j := 4095) (by omega)
  have h3 := toNat_visitLevel pass (j := j + 1) (by omega)
  unfold nextVisit
  rw [if_neg]
  · congr 2
    apply BitVec.eq_of_toNat_eq
    rw [h3]
    split
    · rw [if_pos ‹_›] at h1
      rw [BitVec.toNat_add, h1]
      simp
      omega
    · rw [if_neg ‹_›] at h1
      rw [BitVec.toNat_sub, h1]
      simp
      omega
  · intro h
    rw [h, h2] at h1
    split at h1 <;> omega

/-- After the last visit of a pass comes the next pass's first, or the end. -/
theorem nextVisit_last (ns pass : Nat) :
    nextVisit ns pass (visitLevel pass 4095) =
      if pass + 1 < ns then some (pass + 1, visitLevel (pass + 1) 0) else none := by
  unfold nextVisit
  rw [if_pos rfl]

theorem sweep_eq (spl st pass : Nat) (s : State) :
    sweep spl st pass s = (List.range' 0 (4095 + 1)).foldl (fun s j => visit spl st (visitLevel pass j) s) s := by
  rw [← List.range_eq_range']
  rfl

/-- The visits of a pass from visit `j` on. -/
theorem seqRun_visits (ns spl st pass m : Nat) (j : Nat) (s : State) (hj : j + m = 4095) :
    seqRun ((m + 1) * (st + spl + 2)) (enterVisit ns spl st pass (visitLevel pass j) s) =
      leaveVisit ns spl st pass (visitLevel pass 4095)
        ((List.range' j (m + 1)).foldl (fun s j => visit spl st (visitLevel pass j) s) s) := by
  induction m generalizing j s with
  | zero =>
    rw [Nat.zero_add, Nat.one_mul, seqRun_visit, show j = 4095 by omega]
    rfl
  | succ m ih =>
    rw [show (m + 1 + 1) * (st + spl + 2) = (st + spl + 2) + (m + 1) * (st + spl + 2) by ring, seqRun_add, seqRun_visit,
      List.range'_succ, List.foldl_cons]
    unfold leaveVisit
    rw [nextVisit_of_lt _ _ (by omega)]
    exact ih (j + 1) _ (by omega)

/-- One sweep pass of R115. -/
theorem seqRun_pass (ns spl st pass : Nat) (s : State) :
    seqRun (4096 * (st + spl + 2)) (enterVisit ns spl st pass (visitLevel pass 0) s) =
      leaveVisit ns spl st pass (visitLevel pass 4095) (sweep spl st pass s) := by
  have := seqRun_visits ns spl st pass 4095 0 s rfl
  rwa [← sweep_eq] at this

/-! ## What the loops leave alone -/

/-- One sample of a collection: the answer is counted, one converter read passes, and only the generator's state and the
histogram change besides. -/
theorem collectSample_eq (s : State) :
    collectSample s =
      { s with
        acc := (collectSample s).acc
        output := (collectSample s).output
        hist := (record (s.env.answer 0) s).hist
        env := s.env.afterTurn.afterTurn.afterDraw.afterTurn } := rfl

theorem settleTick_eq (s : State) :
    settleTick s =
      { s with acc := (settleTick s).acc, output := (settleTick s).output, env := s.env.afterTurn } := rfl

/-- One sample of an average. -/
theorem avgSample_eq (n sum count : Nat) (s : State) :
    avgSample n sum count s =
      { s with
        acc := (avgSample n sum count s).acc
        output := (avgSample n sum count s).output
        seq := .avg n (sum + (s.env.answer 0).toNat) (count + 1)
        env := s.env.afterTurn.afterTurn.afterDraw } := rfl

/-- No step of the sequencer touches the host's list, what the last read returned, or the reset count. -/
theorem seqStep_env (s : State) :
    (seqStep s).env.host = s.env.host ∧ (seqStep s).env.rdata = s.env.rdata ∧
      (seqStep s).env.resets = s.env.resets ∧ (seqStep s).env.uncal = s.env.uncal := by
  rcases seqStep_cases s with ⟨-, h⟩ | ⟨_, _, _, _, _, _, -, -, h⟩ | ⟨_, _, _, _, _, _, -, -, h⟩ |
    ⟨_, _, _, _, _, _, -, -, h⟩ | ⟨ns, spl, st, pass, level, _, -, -, h⟩ | ⟨_, _, _, -, -, h⟩ | ⟨_, _, _, -, -, h⟩
  all_goals rw [h]
  all_goals try exact ⟨rfl, rfl, rfl, rfl⟩
  rcases leaveVisit_cases ns spl st pass level s with ⟨_, _, -, h⟩ | ⟨-, h⟩ <;> rw [h] <;> exact ⟨rfl, rfl, rfl, rfl⟩

/-- No step of the sequencer touches the calibration, the record buffer or the configuration. -/
theorem seqStep_calibration (s : State) :
    (seqStep s).corr = s.corr ∧ (seqStep s).codeMin = s.codeMin ∧ (seqStep s).codeMax = s.codeMax ∧
      (seqStep s).magic = s.magic ∧ (seqStep s).recbuf = s.recbuf ∧ (seqStep s).numSweeps = s.numSweeps ∧
      (seqStep s).samplesPerLevel = s.samplesPerLevel ∧ (seqStep s).settleTicks = s.settleTicks := by
  rcases seqStep_cases s with ⟨-, h⟩ | ⟨_, _, _, _, _, _, -, -, h⟩ | ⟨_, _, _, _, _, _, -, -, h⟩ |
    ⟨_, _, _, _, _, _, -, -, h⟩ | ⟨ns, spl, st, pass, level, _, -, -, h⟩ | ⟨_, _, _, -, -, h⟩ | ⟨_, _, _, -, -, h⟩
  all_goals rw [h]
  all_goals try exact ⟨rfl, rfl, rfl, rfl, rfl, rfl, rfl, rfl⟩
  rcases leaveVisit_cases ns spl st pass level s with ⟨_, _, -, h⟩ | ⟨-, h⟩ <;> rw [h] <;>
    exact ⟨rfl, rfl, rfl, rfl, rfl, rfl, rfl, rfl⟩

/-- A run of the sequencer keeps whatever each of its steps keeps. -/
theorem seqRun_keeps {P : State → Prop} (hP : ∀ s, P s → P (seqStep s)) (k : Nat) (s : State) (h : P s) :
    P (seqRun k s) := by
  induction k generalizing s with
  | zero => exact h
  | succ k ih => exact ih _ (hP s h)

/-! ## The run of `SMP.AVG` -/

theorem averageLoop_withSeq (n : Nat) (s : State) (x : Seq) :
    averageLoop n { s with seq := x } = { averageLoop n s with seq := x } :=
  times_withSeq (fun _ _ => rfl) n s x

/-- From count `c` on: the remaining samples, then the division. -/
theorem seqRun_avg (n m sum c : Nat) (s : State) (h : s.seq = .avg n sum c) (hc : c + m = n) :
    seqRun (m + 1) s =
      finishAvg n (sum + ((List.range m).map fun i => (s.env.answer i).toNat).sum) (averageLoop m s) := by
  induction m generalizing sum c s with
  | zero =>
    rw [seqRun, seqRun, seqStep_avgDone h (by omega)]
    rfl
  | succ m ih =>
    have e1 : averageLoop (m + 1) s = averageLoop m ((sample (serializerTurn s)).2) := rfl
    have e2 : avgSample n sum c s =
        { (sample (serializerTurn s)).2 with seq := .avg n (sum + (s.env.answer 0).toNat) (c + 1) } := rfl
    have e3 : ∀ (a : Nat) (u : State) x, finishAvg n a { u with seq := x } = finishAvg n a u := fun _ _ _ => rfl
    rw [seqRun, seqStep_avg h (by omega), ih (sum + (s.env.answer 0).toNat) (c + 1) _ rfl (by omega), e1, e2,
      averageLoop_withSeq, e3]
    congr 1
    simp [List.range_succ_eq_map, Function.comp_def, Nat.add_assoc]

theorem averageLoop_frame (m : Nat) (s : State) :
    averageLoop m s =
      { s with acc := (averageLoop m s).acc, output := (averageLoop m s).output, env := (averageLoop m s).env } := by
  induction m generalizing s with
  | zero => rfl
  | succ m ih => exact ih ((sample (serializerTurn s)).2)

theorem averageLoop_draws (m : Nat) (s : State) : (averageLoop m s).env.draws = s.env.draws + m := by
  induction m generalizing s with
  | zero => rfl
  | succ m ih =>
    have := ih ((sample (serializerTurn s)).2)
    simp only [sample_env, serializerTurn_env, afterDraw_draws, afterTurn_draws] at this
    rw [show s.env.draws + (m + 1) = s.env.draws + 1 + m by omega, ← this]
    rfl

/-! ## How a collection tallies -/

/-- `t` follows from `s` by `n` counted samples: only the generator, the histogram and the environment's converter and
serializer fields differ, and every counter has gained its samples modulo 2^32. -/
structure Tally (s t : State) (n : Nat) : Prop where
  frame : t =
    { s with
      target := t.target, acc := t.acc, output := t.output, hist := t.hist, seq := t.seq, env := t.env }
  env : t.env = { s.env with adc := t.env.adc, schedule := t.env.schedule, turns := t.env.turns, draws := s.env.draws + n }
  answers : ∀ i, t.env.answer i = s.env.answer (n + i)
  counts : ∀ c, c < 4096 → (t.histAt c).toNat =
    ((s.histAt c).toNat + (List.range n).countP fun i => (s.env.answer i).toNat = c) % 2 ^ 32

theorem countP_range_add (p : Nat → Bool) (m n : Nat) :
    (List.range (m + n)).countP p = (List.range m).countP p + (List.range n).countP fun i => p (m + i) := by
  rw [List.range_add, List.countP_append, List.countP_map]
  rfl

/-- A change that takes no sample and leaves the histogram. -/
theorem Tally.of_frame {s t : State}
    (hf : t = { s with target := t.target, acc := t.acc, output := t.output, hist := t.hist, seq := t.seq, env := t.env })
    (hh : t.hist = s.hist)
    (he : t.env = { s.env with schedule := t.env.schedule, turns := t.env.turns }) : Tally s t 0 := by
  refine ⟨hf, he ▸ rfl, fun i => ?_, fun c _ => ?_⟩
  · rw [Nat.zero_add, he]
    rfl
  · have := (s.histAt c).isLt
    have : t.histAt c = s.histAt c := by rw [State.histAt, hh, State.histAt]
    rw [this]
    simp
    omega

theorem Tally.trans {s t u : State} {m n : Nat} (h : Tally s t m) (h' : Tally t u n) : Tally s u (m + n) := by
  obtain ⟨f1, e1, a1, c1⟩ := h
  obtain ⟨f2, e2, a2, c2⟩ := h'
  refine ⟨?_, ?_, fun i => ?_, fun c hc => ?_⟩
  · rw [f1] at f2
    exact f2
  · rw [e1] at e2
    rw [e2]
    simp only [Nat.add_assoc]
  · rw [a2, a1, Nat.add_assoc]
  · rw [c2 c hc, c1 c hc, countP_range_add]
    simp only [a1]
    omega

theorem tally_settleTick (s : State) : Tally s (settleTick s) 0 := .of_frame rfl rfl rfl

theorem tally_collectSample (s : State) : Tally s (collectSample s) 1 := by
  refine ⟨rfl, rfl, fun i => ?_, fun c hc => ?_⟩
  · rw [collectSample_eq]
    simp [Nat.add_comm]
  · have := (s.histAt c).isLt
    have h : (collectSample s).histAt c = (record (s.env.answer 0) s).histAt c := rfl
    have e : (List.range 1).countP (fun i => decide ((s.env.answer i).toNat = c)) =
        if (s.env.answer 0).toNat = c then 1 else 0 := by
      simp [List.range_succ, List.countP_cons]
    rw [h, histAt_record, e]
    by_cases hh : (s.env.answer 0).toNat = c
    · rw [if_pos ⟨hh.symm, by omega⟩, if_pos hh]
      simp [BitVec.toNat_add]
    · rw [if_neg (fun h => hh h.1.symm), if_neg hh]
      omega

theorem tally_times {f : State → State} {k : Nat} (hf : ∀ s, Tally s (f s) k) (n : Nat) (s : State) :
    Tally s (times f n s) (n * k) := by
  induction n generalizing s with
  | zero =>
    rw [Nat.zero_mul]
    exact .of_frame rfl rfl rfl
  | succ n ih =>
    have := (hf s).trans (ih (f s))
    rwa [show k + n * k = (n + 1) * k by ring] at this

theorem tally_visit (spl st : Nat) (level : Level) (s : State) : Tally s (visit spl st level s) spl := by
  have h0 : Tally s { s with target := level } 0 := .of_frame rfl rfl rfl
  have h1 := tally_times tally_settleTick st { s with target := level }
  have h2 := tally_times tally_collectSample spl (times settleTick st { s with target := level })
  have := (h0.trans h1).trans h2
  rwa [show 0 + st * 0 + spl * 1 = spl by omega] at this

theorem tally_foldl {f : State → Nat → State} {k : Nat} (hf : ∀ s j, Tally s (f s j) k) (l : List Nat) (s : State) :
    Tally s (l.foldl f s) (l.length * k) := by
  induction l generalizing s with
  | nil =>
    rw [List.length_nil, Nat.zero_mul]
    exact .of_frame rfl rfl rfl
  | cons a l ih =>
    have := (hf s a).trans (ih (f s a))
    rwa [show k + l.length * k = (a :: l).length * k by simp; ring] at this

theorem tally_sweep (spl st pass : Nat) (s : State) : Tally s (sweep spl st pass s) (4096 * spl) := by
  have := tally_foldl (fun s j => tally_visit spl st (BitVec.ofNat 12 (if pass % 2 = 0 then j else 4095 - j)) s)
    (List.range 4096) s
  rwa [List.length_range] at this

end Sys2Proof.Machine
end

