-- ==== Sys2Proof/Laws/Commands.lean ====
section
/-! SUPPORT. What each command's meaning answers, one equation per command, and the shared ends of a command: no command
leaves one in flight but through the sequencer. -/

namespace Sys2Proof.Machine

/-! ## What the commands over tables leave alone -/

@[simp] theorem lutBuilt_target (s : State) : (lutBuilt s).target = s.target := by
  simp only [lutBuilt, complete_target]
@[simp] theorem lutBuilt_acc (s : State) : (lutBuilt s).acc = s.acc := by
  simp only [lutBuilt, complete_acc]
@[simp] theorem lutBuilt_output (s : State) : (lutBuilt s).output = s.output := by
  simp only [lutBuilt, complete_output]
@[simp] theorem lutBuilt_hist (s : State) : (lutBuilt s).hist = s.hist := by
  simp only [lutBuilt, complete_hist]
@[simp] theorem lutBuilt_numSweeps (s : State) : (lutBuilt s).numSweeps = s.numSweeps := by
  simp only [lutBuilt, complete_numSweeps]
@[simp] theorem lutBuilt_samplesPerLevel (s : State) : (lutBuilt s).samplesPerLevel = s.samplesPerLevel := by
  simp only [lutBuilt, complete_samplesPerLevel]
@[simp] theorem lutBuilt_settleTicks (s : State) : (lutBuilt s).settleTicks = s.settleTicks := by
  simp only [lutBuilt, complete_settleTicks]
@[simp] theorem lutBuilt_seq (s : State) : (lutBuilt s).seq = s.seq := by
  simp only [lutBuilt, complete_seq]
@[simp] theorem lutBuilt_recbuf (s : State) : (lutBuilt s).recbuf = s.recbuf := by
  simp only [lutBuilt, complete_recbuf]
@[simp] theorem lutBuilt_env (s : State) : (lutBuilt s).env = s.env := by
  simp only [lutBuilt, complete_env]
@[simp] theorem recLoaded_target (s : State) : (recLoaded s).target = s.target := by
  simp only [recLoaded, complete_target]
@[simp] theorem recLoaded_acc (s : State) : (recLoaded s).acc = s.acc := by
  simp only [recLoaded, complete_acc]
@[simp] theorem recLoaded_output (s : State) : (recLoaded s).output = s.output := by
  simp only [recLoaded, complete_output]
@[simp] theorem recLoaded_hist (s : State) : (recLoaded s).hist = s.hist := by
  simp only [recLoaded, complete_hist]
@[simp] theorem recLoaded_numSweeps (s : State) : (recLoaded s).numSweeps = s.numSweeps := by
  simp only [recLoaded, complete_numSweeps]
@[simp] theorem recLoaded_samplesPerLevel (s : State) : (recLoaded s).samplesPerLevel = s.samplesPerLevel := by
  simp only [recLoaded, complete_samplesPerLevel]
@[simp] theorem recLoaded_settleTicks (s : State) : (recLoaded s).settleTicks = s.settleTicks := by
  simp only [recLoaded, complete_settleTicks]
@[simp] theorem recLoaded_seq (s : State) : (recLoaded s).seq = s.seq := by
  simp only [recLoaded, complete_seq]
@[simp] theorem recLoaded_recbuf (s : State) : (recLoaded s).recbuf = s.recbuf := by
  simp only [recLoaded, complete_recbuf]
@[simp] theorem recLoaded_env (s : State) : (recLoaded s).env = s.env := by
  simp only [recLoaded, complete_env]
@[simp] theorem uncalibratedResult_target (s : State) : (uncalibratedResult s).target = s.target := by
  simp only [uncalibratedResult, complete_target]
@[simp] theorem uncalibratedResult_acc (s : State) : (uncalibratedResult s).acc = s.acc := by
  simp only [uncalibratedResult, complete_acc]
@[simp] theorem uncalibratedResult_output (s : State) : (uncalibratedResult s).output = s.output := by
  simp only [uncalibratedResult, complete_output]
@[simp] theorem uncalibratedResult_hist (s : State) : (uncalibratedResult s).hist = s.hist := by
  simp only [uncalibratedResult, complete_hist]
@[simp] theorem uncalibratedResult_corr (s : State) : (uncalibratedResult s).corr = s.corr := by
  simp only [uncalibratedResult, complete_corr]
@[simp] theorem uncalibratedResult_codeMin (s : State) : (uncalibratedResult s).codeMin = s.codeMin := by
  simp only [uncalibratedResult, complete_codeMin]
@[simp] theorem uncalibratedResult_codeMax (s : State) : (uncalibratedResult s).codeMax = s.codeMax := by
  simp only [uncalibratedResult, complete_codeMax]
@[simp] theorem uncalibratedResult_magic (s : State) : (uncalibratedResult s).magic = s.magic := by
  simp only [uncalibratedResult, complete_magic]
@[simp] theorem uncalibratedResult_numSweeps (s : State) : (uncalibratedResult s).numSweeps = s.numSweeps := by
  simp only [uncalibratedResult, complete_numSweeps]
@[simp] theorem uncalibratedResult_samplesPerLevel (s : State) : (uncalibratedResult s).samplesPerLevel = s.samplesPerLevel := by
  simp only [uncalibratedResult, complete_samplesPerLevel]
@[simp] theorem uncalibratedResult_settleTicks (s : State) : (uncalibratedResult s).settleTicks = s.settleTicks := by
  simp only [uncalibratedResult, complete_settleTicks]
@[simp] theorem uncalibratedResult_seq (s : State) : (uncalibratedResult s).seq = s.seq := by
  simp only [uncalibratedResult, complete_seq]
@[simp] theorem uncalibratedResult_recbuf (s : State) : (uncalibratedResult s).recbuf = s.recbuf := by
  simp only [uncalibratedResult, complete_recbuf]
@[simp] theorem settleTick_target (s : State) : (settleTick s).target = s.target := rfl
@[simp] theorem settleTick_hist (s : State) : (settleTick s).hist = s.hist := rfl
@[simp] theorem settleTick_corr (s : State) : (settleTick s).corr = s.corr := rfl
@[simp] theorem settleTick_codeMin (s : State) : (settleTick s).codeMin = s.codeMin := rfl
@[simp] theorem settleTick_codeMax (s : State) : (settleTick s).codeMax = s.codeMax := rfl
@[simp] theorem settleTick_magic (s : State) : (settleTick s).magic = s.magic := rfl
@[simp] theorem settleTick_result (s : State) : (settleTick s).result = s.result := rfl
@[simp] theorem settleTick_status (s : State) : (settleTick s).status = s.status := rfl
@[simp] theorem settleTick_numSweeps (s : State) : (settleTick s).numSweeps = s.numSweeps := rfl
@[simp] theorem settleTick_samplesPerLevel (s : State) : (settleTick s).samplesPerLevel = s.samplesPerLevel := rfl
@[simp] theorem settleTick_settleTicks (s : State) : (settleTick s).settleTicks = s.settleTicks := rfl
@[simp] theorem settleTick_seq (s : State) : (settleTick s).seq = s.seq := rfl
@[simp] theorem settleTick_recbuf (s : State) : (settleTick s).recbuf = s.recbuf := rfl
@[simp] theorem collectSample_target (s : State) : (collectSample s).target = s.target := rfl
@[simp] theorem collectSample_corr (s : State) : (collectSample s).corr = s.corr := rfl
@[simp] theorem collectSample_codeMin (s : State) : (collectSample s).codeMin = s.codeMin := rfl
@[simp] theorem collectSample_codeMax (s : State) : (collectSample s).codeMax = s.codeMax := rfl
@[simp] theorem collectSample_magic (s : State) : (collectSample s).magic = s.magic := rfl
@[simp] theorem collectSample_result (s : State) : (collectSample s).result = s.result := rfl
@[simp] theorem collectSample_status (s : State) : (collectSample s).status = s.status := rfl
@[simp] theorem collectSample_numSweeps (s : State) : (collectSample s).numSweeps = s.numSweeps := rfl
@[simp] theorem collectSample_samplesPerLevel (s : State) : (collectSample s).samplesPerLevel = s.samplesPerLevel := rfl
@[simp] theorem collectSample_settleTicks (s : State) : (collectSample s).settleTicks = s.settleTicks := rfl
@[simp] theorem collectSample_seq (s : State) : (collectSample s).seq = s.seq := rfl
@[simp] theorem collectSample_recbuf (s : State) : (collectSample s).recbuf = s.recbuf := rfl
@[simp] theorem avgSample_target (n sum count : Nat) (s : State) : (avgSample n sum count s).target = s.target := rfl
@[simp] theorem avgSample_hist (n sum count : Nat) (s : State) : (avgSample n sum count s).hist = s.hist := rfl
@[simp] theorem avgSample_corr (n sum count : Nat) (s : State) : (avgSample n sum count s).corr = s.corr := rfl
@[simp] theorem avgSample_codeMin (n sum count : Nat) (s : State) : (avgSample n sum count s).codeMin = s.codeMin := rfl
@[simp] theorem avgSample_codeMax (n sum count : Nat) (s : State) : (avgSample n sum count s).codeMax = s.codeMax := rfl
@[simp] theorem avgSample_magic (n sum count : Nat) (s : State) : (avgSample n sum count s).magic = s.magic := rfl
@[simp] theorem avgSample_result (n sum count : Nat) (s : State) : (avgSample n sum count s).result = s.result := rfl
@[simp] theorem avgSample_status (n sum count : Nat) (s : State) : (avgSample n sum count s).status = s.status := rfl
@[simp] theorem avgSample_numSweeps (n sum count : Nat) (s : State) : (avgSample n sum count s).numSweeps = s.numSweeps := rfl
@[simp] theorem avgSample_samplesPerLevel (n sum count : Nat) (s : State) : (avgSample n sum count s).samplesPerLevel = s.samplesPerLevel := rfl
@[simp] theorem avgSample_settleTicks (n sum count : Nat) (s : State) : (avgSample n sum count s).settleTicks = s.settleTicks := rfl
@[simp] theorem avgSample_recbuf (n sum count : Nat) (s : State) : (avgSample n sum count s).recbuf = s.recbuf := rfl
@[simp] theorem enterVisit_acc (ns spl st pass : Nat) (level : Level) (s : State) : (enterVisit ns spl st pass level s).acc = s.acc := rfl
@[simp] theorem enterVisit_output (ns spl st pass : Nat) (level : Level) (s : State) : (enterVisit ns spl st pass level s).output = s.output := rfl
@[simp] theorem enterVisit_hist (ns spl st pass : Nat) (level : Level) (s : State) : (enterVisit ns spl st pass level s).hist = s.hist := rfl
@[simp] theorem enterVisit_corr (ns spl st pass : Nat) (level : Level) (s : State) : (enterVisit ns spl st pass level s).corr = s.corr := rfl
@[simp] theorem enterVisit_codeMin (ns spl st pass : Nat) (level : Level) (s : State) : (enterVisit ns spl st pass level s).codeMin = s.codeMin := rfl
@[simp] theorem enterVisit_codeMax (ns spl st pass : Nat) (level : Level) (s : State) : (enterVisit ns spl st pass level s).codeMax = s.codeMax := rfl
@[simp] theorem enterVisit_magic (ns spl st pass : Nat) (level : Level) (s : State) : (enterVisit ns spl st pass level s).magic = s.magic := rfl
@[simp] theorem enterVisit_result (ns spl st pass : Nat) (level : Level) (s : State) : (enterVisit ns spl st pass level s).result = s.result := rfl
@[simp] theorem enterVisit_status (ns spl st pass : Nat) (level : Level) (s : State) : (enterVisit ns spl st pass level s).status = s.status := rfl
@[simp] theorem enterVisit_numSweeps (ns spl st pass : Nat) (level : Level) (s : State) : (enterVisit ns spl st pass level s).numSweeps = s.numSweeps := rfl
@[simp] theorem enterVisit_samplesPerLevel (ns spl st pass : Nat) (level : Level) (s : State) : (enterVisit ns spl st pass level s).samplesPerLevel = s.samplesPerLevel := rfl
@[simp] theorem enterVisit_settleTicks (ns spl st pass : Nat) (level : Level) (s : State) : (enterVisit ns spl st pass level s).settleTicks = s.settleTicks := rfl
@[simp] theorem enterVisit_recbuf (ns spl st pass : Nat) (level : Level) (s : State) : (enterVisit ns spl st pass level s).recbuf = s.recbuf := rfl
@[simp] theorem enterVisit_env (ns spl st pass : Nat) (level : Level) (s : State) : (enterVisit ns spl st pass level s).env = s.env := rfl

/-! ## What they write -/

@[simp] theorem lutBuilt_corr (s : State) : (lutBuilt s).corr = buildTable s.counts := by
  simp only [lutBuilt, complete_corr]
@[simp] theorem lutBuilt_codeMin (s : State) : (lutBuilt s).codeMin = BitVec.ofNat 16 (lowestCode s.counts) := by
  simp only [lutBuilt, complete_codeMin]
@[simp] theorem lutBuilt_codeMax (s : State) : (lutBuilt s).codeMax = BitVec.ofNat 16 (highestCode s.counts) := by
  simp only [lutBuilt, complete_codeMax]
@[simp] theorem lutBuilt_magic (s : State) : (lutBuilt s).magic = Config.magicValid := by
  simp only [lutBuilt, complete_magic]
@[simp] theorem lutBuilt_result (s : State) : (lutBuilt s).result = 0 := by
  simp only [lutBuilt, complete_result]
@[simp] theorem lutBuilt_status (s : State) : (lutBuilt s).status = { s.status with ok := true, cause := .none } := by
  simp only [lutBuilt, complete_status]
@[simp] theorem recLoaded_corr (s : State) : (recLoaded s).corr = tabulate 4096 fun i => s.recHalf (4 + 2 * i) := by
  simp only [recLoaded, complete_corr]
@[simp] theorem recLoaded_codeMin (s : State) : (recLoaded s).codeMin = s.recHalf 8196 := by
  simp only [recLoaded, complete_codeMin]
@[simp] theorem recLoaded_codeMax (s : State) : (recLoaded s).codeMax = s.recHalf 8198 := by
  simp only [recLoaded, complete_codeMax]
@[simp] theorem recLoaded_magic (s : State) : (recLoaded s).magic = Config.magicValid := by
  simp only [recLoaded, complete_magic]
@[simp] theorem recLoaded_result (s : State) : (recLoaded s).result = 0 := by
  simp only [recLoaded, complete_result]
@[simp] theorem recLoaded_status (s : State) : (recLoaded s).status = { s.status with ok := true, cause := .none } := by
  simp only [recLoaded, complete_status]

/-! ## One equation per command -/

theorem exec_wgInit (s : State) :
    exec .wgInit s = .next (State.complete 0
      { s with acc := 0, target := 0, output := { s.output with q := [], srcnt := 0, dout := .undriven } }) := rfl

theorem exec_wgSett (level : Level) (s : State) :
    exec (.wgSett level) s = .next (State.complete 0 { s with target := level }) := rfl

theorem exec_wgFeed_of_room {s : State} (h : s.qfull = false) :
    exec .wgFeed s = .next (State.complete (genWord s.acc s.target).2 (feedAttempt s).2) := by
  show Host.Outcome.next (feedOutcome (feedAttempt s)) = _
  rw [feedAttempt_of_room h, feedOutcome]

theorem exec_wgFeed_of_full {s : State} (h : s.qfull = true) :
    exec .wgFeed s = .next (State.raise .queueFull s) := by
  show Host.Outcome.next (feedOutcome (feedAttempt s)) = _
  rw [feedAttempt_of_full h, feedOutcome]

theorem exec_smpRaw (s : State) :
    exec .smpRaw s = .next (State.complete ((sample s).1.setWidth 32) (sample s).2) := rfl

theorem exec_smpAvg_of_zero (s : State) : exec (.smpAvg 0) s = .next (State.raise .illegalCommand s) := rfl

theorem exec_smpAvg_of_ne_zero {n : Half} (hn : n ≠ 0) (s : State) :
    exec (.smpAvg n) s = .next (seqRun (n.toNat + 1) { s with seq := .avg n.toNat 0 0 }) := by
  show Host.Outcome.next (if n = 0 then _ else _) = _
  rw [if_neg hn]

theorem exec_hstClr (s : State) :
    exec .hstClr s = .next (State.complete 0 { s with hist := Vector.replicate 4096 0 }) := rfl

theorem exec_hstRec (code : Half) (s : State) :
    exec (.hstRec code) s = .next (State.complete 0 (record code s)) := rfl

theorem exec_hstCollect (s : State) :
    exec .hstCollect s = .next (seqRun (collectSteps s) (startCollect s)) := rfl

theorem exec_lutBuild_of_empty {s : State} (h : s.counts.all (· = 0) = true) :
    exec .lutBuild s = .next (State.raise .emptyHistogram s) := by
  show Host.Outcome.next (if _ then _ else _) = _
  rw [if_pos h]

theorem exec_lutBuild_of_counts {s : State} (h : s.counts.all (· = 0) = false) :
    exec .lutBuild s = .next (lutBuilt s) := by
  show Host.Outcome.next (if _ then _ else _) = _
  rw [if_neg (by rw [h]; exact Bool.false_ne_true)]

theorem exec_lutSmooth (s : State) :
    exec .lutSmooth s = .next (State.complete 0 { s with corr := smoothTable s.corr }) := rfl

theorem exec_lutCorrect_of_valid {s : State} (h : s.valid = true) (raw : Level) :
    exec (.lutCorrect raw) s = .next (State.complete (correctedCode raw s) s) := by
  show Host.Outcome.next (if _ then _ else _) = _
  rw [if_pos h]

theorem exec_lutCorrect_of_invalid {s : State} (h : s.valid = false) (raw : Level) :
    exec (.lutCorrect raw) s = .next (uncalibratedResult s) := by
  show Host.Outcome.next (if _ then _ else _) = _
  rw [if_neg (by rw [h]; exact Bool.false_ne_true)]

theorem exec_recStore (s : State) :
    exec .recStore s =
      .next (State.complete (BitVec.ofNat 32 Config.recSize) (State.recStore 0 (recordBytes s) s)) := rfl

theorem exec_recLoad_of_valid {size : Half} {s : State} (h : loadValid size s = true) :
    exec (.recLoad size) s = .next (recLoaded s) := by
  show Host.Outcome.next (if _ then _ else _) = _
  rw [if_pos h]

theorem exec_recLoad_of_invalid {size : Half} {s : State} (h : loadValid size s = false) :
    exec (.recLoad size) s = .next (State.raise .dataInvalid s) := by
  show Host.Outcome.next (if _ then _ else _) = _
  rw [if_neg (by rw [h]; exact Bool.false_ne_true)]

/-- Everything a command's meaning can answer. -/
theorem exec_cases {i : Instr} {s t : State} (h : exec i s = .next t) :
    (i = .wgInit ∧ t = State.complete 0
      { s with acc := 0, target := 0, output := { s.output with q := [], srcnt := 0, dout := .undriven } }) ∨
    (∃ level, i = .wgSett level ∧ t = State.complete 0 { s with target := level }) ∨
    (i = .wgFeed ∧ s.qfull = false ∧ t = State.complete (genWord s.acc s.target).2 (feedAttempt s).2) ∨
    (i = .wgFeed ∧ s.qfull = true ∧ t = State.raise .queueFull s) ∨
    (i = .smpRaw ∧ t = State.complete ((sample s).1.setWidth 32) (sample s).2) ∨
    (i = .smpAvg 0 ∧ t = State.raise .illegalCommand s) ∨
    (∃ n, n ≠ 0 ∧ i = .smpAvg n ∧ t = seqRun (n.toNat + 1) { s with seq := .avg n.toNat 0 0 }) ∨
    (i = .hstClr ∧ t = State.complete 0 { s with hist := Vector.replicate 4096 0 }) ∨
    (∃ code, i = .hstRec code ∧ t = State.complete 0 (record code s)) ∨
    (i = .hstCollect ∧ t = seqRun (collectSteps s) (startCollect s)) ∨
    (i = .lutBuild ∧ s.counts.all (· = 0) = true ∧ t = State.raise .emptyHistogram s) ∨
    (i = .lutBuild ∧ s.counts.all (· = 0) = false ∧ t = lutBuilt s) ∨
    (i = .lutSmooth ∧ t = State.complete 0 { s with corr := smoothTable s.corr }) ∨
    (∃ raw, i = .lutCorrect raw ∧ s.valid = true ∧ t = State.complete (correctedCode raw s) s) ∨
    (∃ raw, i = .lutCorrect raw ∧ s.valid = false ∧ t = uncalibratedResult s) ∨
    (i = .recStore ∧ t = State.complete (BitVec.ofNat 32 Config.recSize) (State.recStore 0 (recordBytes s) s)) ∨
    (∃ size, i = .recLoad size ∧ loadValid size s = true ∧ t = recLoaded s) ∨
    (∃ size, i = .recLoad size ∧ loadValid size s = false ∧ t = State.raise .dataInvalid s) := by
  cases i with
  | wgInit => exact .inl ⟨rfl, (Host.Outcome.next.inj ((exec_wgInit s).symm.trans h)).symm⟩
  | wgSett level =>
    exact .inr (.inl ⟨level, rfl, (Host.Outcome.next.inj ((exec_wgSett level s).symm.trans h)).symm⟩)
  | wgFeed =>
    cases hf : s.qfull with
    | false =>
      exact .inr (.inr (.inl ⟨rfl, rfl, (Host.Outcome.next.inj ((exec_wgFeed_of_room hf).symm.trans h)).symm⟩))
    | true =>
      exact .inr (.inr (.inr (.inl
        ⟨rfl, rfl, (Host.Outcome.next.inj ((exec_wgFeed_of_full hf).symm.trans h)).symm⟩)))
  | smpRaw =>
    exact .inr (.inr (.inr (.inr (.inl ⟨rfl, (Host.Outcome.next.inj ((exec_smpRaw s).symm.trans h)).symm⟩))))
  | smpAvg n =>
    by_cases hn : n = 0
    · subst hn
      exact .inr (.inr (.inr (.inr (.inr (.inl
        ⟨rfl, (Host.Outcome.next.inj ((exec_smpAvg_of_zero s).symm.trans h)).symm⟩)))))
    · exact .inr (.inr (.inr (.inr (.inr (.inr (.inl
        ⟨n, hn, rfl, (Host.Outcome.next.inj ((exec_smpAvg_of_ne_zero hn s).symm.trans h)).symm⟩))))))
  | hstClr =>
    exact .inr (.inr (.inr (.inr (.inr (.inr (.inr (.inl
      ⟨rfl, (Host.Outcome.next.inj ((exec_hstClr s).symm.trans h)).symm⟩)))))))
  | hstRec code =>
    exact .inr (.inr (.inr (.inr (.inr (.inr (.inr (.inr (.inl
      ⟨code, rfl, (Host.Outcome.next.inj ((exec_hstRec code s).symm.trans h)).symm⟩))))))))
  | hstCollect =>
    exact .inr (.inr (.inr (.inr (.inr (.inr (.inr (.inr (.inr (.inl
      ⟨rfl, (Host.Outcome.next.inj ((exec_hstCollect s).symm.trans h)).symm⟩)))))))))
  | lutBuild =>
    iterate 10 right
    cases he : s.counts.all (· = 0) with
    | true => exact .inl ⟨rfl, rfl, (Host.Outcome.next.inj ((exec_lutBuild_of_empty he).symm.trans h)).symm⟩
    | false => exact .inr (.inl ⟨rfl, rfl, (Host.Outcome.next.inj ((exec_lutBuild_of_counts he).symm.trans h)).symm⟩)
  | lutSmooth =>
    iterate 12 right
    exact .inl ⟨rfl, (Host.Outcome.next.inj ((exec_lutSmooth s).symm.trans h)).symm⟩
  | lutCorrect raw =>
    iterate 13 right
    cases hv : s.valid with
    | true =>
      exact .inl ⟨raw, rfl, rfl, (Host.Outcome.next.inj ((exec_lutCorrect_of_valid hv raw).symm.trans h)).symm⟩
    | false =>
      exact .inr (.inl
        ⟨raw, rfl, rfl, (Host.Outcome.next.inj ((exec_lutCorrect_of_invalid hv raw).symm.trans h)).symm⟩)
  | recStore =>
    iterate 15 right
    exact .inl ⟨rfl, (Host.Outcome.next.inj ((exec_recStore s).symm.trans h)).symm⟩
  | recLoad size =>
    iterate 16 right
    cases hv : loadValid size s with
    | true =>
      exact .inl ⟨size, rfl, hv, (Host.Outcome.next.inj ((exec_recLoad_of_valid hv).symm.trans h)).symm⟩
    | false =>
      exact .inr ⟨size, rfl, hv, (Host.Outcome.next.inj ((exec_recLoad_of_invalid hv).symm.trans h)).symm⟩

end Sys2Proof.Machine
end

