-- ==== Sys2Proof/Laws/Step.lean ====
section
/-! SUPPORT. What a step does, said once: one equation per kind of step, and the inversion of a step that answers a
next state. -/

namespace Sys2Proof.Machine

theorem isIdle_iff (s : State) : s.isIdle = true ↔ s.seq = .idle := by
  unfold State.isIdle
  split <;> simp_all

theorem isIdle_eq_false_iff (s : State) : s.isIdle = false ↔ s.seq ≠ .idle := by
  rw [Ne, ← isIdle_iff, Bool.not_eq_true]

theorem engineTurn_of_idle {s : State} (h : s.seq = .idle) : engineTurn s = serializerTurn s := by
  simp only [engineTurn, h]

theorem engineTurn_of_inFlight {s : State} (h : s.seq ≠ .idle) : engineTurn s = seqStep s := by
  unfold engineTurn
  split
  · exact absurd ‹_› h
  all_goals rfl

theorem beginAccess_seq (rest : List HostEvent) (s : State) : (beginAccess rest s).seq = s.seq := rfl

theorem step_of_reset {s : State} {rest : List HostEvent} (h : s.env.host = .reset :: rest) :
    step s = .next (resetEvent rest s) := by
  simp only [step, h]

theorem step_of_none {s : State} (h : s.env.host = []) : step s = .next (engineTurn s) := by
  simp only [step, h]

theorem step_of_read {s : State} {rest : List HostEvent} {off : BitVec 16} {n : Nat} (hs : s.seq = .idle)
    (h : s.env.host = .read off n :: rest) : step s = hostRead off n (beginAccess rest s) := by
  simp only [step, h, (isIdle_iff s).mpr hs, if_true]

theorem step_of_write {s : State} {rest : List HostEvent} {off : BitVec 16} {n : Nat} {v : Word} (hs : s.seq = .idle)
    (h : s.env.host = .write off n v :: rest) (hc : isCommand off n = false) :
    step s = hostWrite off n v (beginAccess rest s) := by
  simp [step, h, (isIdle_iff s).mpr hs, hc]

theorem step_of_commandWrite {s : State} {rest : List HostEvent} {off : BitVec 16} {n : Nat} {w : Word}
    (hs : s.seq = .idle) (h : s.env.host = .write off n w :: rest) (hc : isCommand off n = true) :
    step s = runCommand w (beginAccess rest s) := by
  simp [step, h, (isIdle_iff s).mpr hs, hc]

/-- While a command is in flight every step but the reset event is one of its own. -/
theorem step_of_inFlight {s : State} (hs : s.seq ≠ .idle) (hr : s.resetNext = false) : step s = .next (seqStep s) := by
  have hi := (isIdle_eq_false_iff s).mpr hs
  have he := engineTurn_of_inFlight hs
  unfold step
  split
  · simp_all [State.resetNext]
  · simp [hi, he]
  · simp [hi, he]
  · rw [he]

theorem runCommand_of_ok {w : Word} {i : Instr} (h : decode w = .ok i) (s : State) : runCommand w s = exec i s := by
  simp only [runCommand, h]

theorem runCommand_of_error {w : Word} {r : Reserved} (h : decode w = .error r) (s : State) :
    runCommand w s = .next (s.raise .illegalCommand) := by
  simp only [runCommand, h]

theorem nextCommand_eq_some {s : State} {rest : List HostEvent} {off : BitVec 16} {n : Nat} {w : Word} {i : Instr}
    (hs : s.seq = .idle) (h : s.env.host = .write off n w :: rest) (hc : isCommand off n = true)
    (hd : decode w = .ok i) : s.nextCommand = some i := by
  simp [State.nextCommand, h, (isIdle_iff s).mpr hs, hc, hd]

/-- A step that answers a next state and is not the reset event is one of: a step of the command in flight, a serializer
turn, an access of the host, an illegal command, or a command. -/
theorem step_cases {s t : State} (hr : s.resetNext = false) (h : step s = .next t) :
    (s.seq ≠ .idle ∧ t = seqStep s) ∨
    (s.seq = .idle ∧ t = serializerTurn s) ∨
    (s.seq = .idle ∧ ∃ rest off n, hostRead off n (beginAccess rest s) = .next t) ∨
    (s.seq = .idle ∧ ∃ rest off n v, hostWrite off n v (beginAccess rest s) = .next t) ∨
    (s.seq = .idle ∧ ∃ rest, t = (beginAccess rest s).raise .illegalCommand) ∨
    (s.seq = .idle ∧ ∃ rest i, s.nextCommand = some i ∧ exec i (beginAccess rest s) = .next t) := by
  by_cases hs : s.seq = .idle
  · right
    cases hh : s.env.host with
    | nil =>
      rw [step_of_none hh, engineTurn_of_idle hs] at h
      cases h
      exact .inl ⟨hs, rfl⟩
    | cons e rest =>
      cases e with
      | reset => simp [State.resetNext, hh] at hr
      | read off n =>
        rw [step_of_read hs hh] at h
        exact .inr (.inl ⟨hs, rest, off, n, h⟩)
      | write off n v =>
        cases hc : isCommand off n with
        | false =>
          rw [step_of_write hs hh hc] at h
          exact .inr (.inr (.inl ⟨hs, rest, off, n, v, h⟩))
        | true =>
          rw [step_of_commandWrite hs hh hc] at h
          cases hd : decode v with
          | error r =>
            rw [runCommand_of_error hd] at h
            cases h
            exact .inr (.inr (.inr (.inl ⟨hs, rest, rfl⟩)))
          | ok i =>
            rw [runCommand_of_ok hd] at h
            exact .inr (.inr (.inr (.inr ⟨hs, rest, i, nextCommand_eq_some hs hh hc hd, h⟩)))
  · rw [step_of_inFlight hs hr] at h
    cases h
    exact .inl ⟨hs, rfl⟩

/-- The machine's run, one step at a time. -/
theorem core_run_succ (k : Nat) {s t : State} (h : step s = .next t) : core.run (k + 1) s = core.run k t := by
  have h' : core.step s = .next t := h
  simp only [Host.Core.run, h']

/-! ## The host's accesses -/

/-- A read that is performed returns what `readLoc` says and changes nothing else. -/
theorem hostRead_cases {s t : State} {off : BitVec 16} {n : Nat} (h : hostRead off n s = .next t) :
    ∃ loc, locate off n = .ok loc ∧ t = { s with env := { s.env with rdata := readLoc s loc } } := by
  unfold hostRead at h
  split at h
  · next loc hl => cases h; exact ⟨loc, hl, rfl⟩
  · cases h

/-- A write that is performed does what `writeLoc` says. -/
theorem hostWrite_cases {s t : State} {off : BitVec 16} {n : Nat} {v : Word} (h : hostWrite off n v s = .next t) :
    ∃ loc, locate off n = .ok loc ∧ t = writeLoc v s loc := by
  unfold hostWrite at h
  split at h
  · next loc hl => cases h; exact ⟨loc, hl, rfl⟩
  · cases h

/-- What a write can change: a status bit, a configuration register or the record buffer. -/
theorem writeLoc_cases (v : Word) (s : State) (loc : Loc) :
    writeLoc v s loc = s ∨ writeLoc v s loc = s.clearIll ∨
    (∃ x, writeLoc v s loc = { s with numSweeps := x }) ∨ (∃ x, writeLoc v s loc = { s with samplesPerLevel := x }) ∨
    (∃ x, writeLoc v s loc = { s with settleTicks := x }) ∨
    ∃ a n, loc = .recbuf a n ∧ writeLoc v s loc = s.recStore a ((le32 v).take n) := by
  cases loc with
  | reg r =>
    cases r
    case status =>
      simp only [writeLoc, writeReg]
      split
      · exact .inr (.inl rfl)
      · exact .inl rfl
    case numSweeps => exact .inr (.inr (.inl ⟨_, rfl⟩))
    case samplesPerLevel => exact .inr (.inr (.inr (.inl ⟨_, rfl⟩)))
    case settleTicks => exact .inr (.inr (.inr (.inr (.inl ⟨_, rfl⟩))))
    all_goals exact .inl rfl
  | hist i => exact .inl rfl
  | corr i => exact .inl rfl
  | corrPair i => exact .inl rfl
  | recbuf a n => exact .inr (.inr (.inr (.inr (.inr ⟨a, n, rfl, rfl⟩))))

end Sys2Proof.Machine
end

