-- ==== Sys2Proof/Laws/HostPort.lean ====
section
/-! SUPPORT. The host's address map: which accesses are located where, and what a located access does. -/

namespace Sys2Proof.Machine

theorem hostRead_of_ok {off : BitVec 16} {n : Nat} {loc : Loc} (h : locate off n = .ok loc) (s : State) :
    hostRead off n s = .next { s with env := { s.env with rdata := readLoc s loc } } := by
  unfold hostRead
  rw [h]

theorem hostWrite_of_ok {off : BitVec 16} {n : Nat} {loc : Loc} (h : locate off n = .ok loc) (v : Word) (s : State) :
    hostWrite off n v s = .next (writeLoc v s loc) := by
  unfold hostWrite
  rw [h]

theorem hostRead_of_error {off : BitVec 16} {n : Nat} {r : Refusal} (h : locate off n = .error r) (s : State) :
    hostRead off n s = .refused r := by
  unfold hostRead
  rw [h]

theorem hostWrite_of_error {off : BitVec 16} {n : Nat} {r : Refusal} (h : locate off n = .error r) (v : Word)
    (s : State) : hostWrite off n v s = .refused r := by
  unfold hostWrite
  rw [h]

theorem toNat_offset {x : Nat} (h : x < 65536) : (BitVec.ofNat 16 x).toNat = x := by
  simp
  omega

theorem locate_hist {i : Nat} (hi : i < 4096) : locate (BitVec.ofNat 16 (0x4000 + 4 * i)) 4 = .ok (.hist i) := by
  unfold locate
  rw [toNat_offset (by omega)]
  simp only
  rw [if_neg (by omega), if_neg (by omega), if_pos (by omega), locateHist, if_pos (by omega),
    show (0x4000 + 4 * i - 0x4000) / 4 = i by omega]

theorem locate_corr {i : Nat} (hi : i < 4096) : locate (BitVec.ofNat 16 (0x8000 + 2 * i)) 2 = .ok (.corr i) := by
  unfold locate
  rw [toNat_offset (by omega)]
  simp only
  rw [if_neg (by omega), if_neg (by omega), if_neg (by omega), if_pos (by omega), locateCorr, if_pos (by omega),
    show (0x8000 + 2 * i - 0x8000) / 2 = i by omega]

theorem locate_corrPair {i : Nat} (hi : i < 4096) (h2 : i % 2 = 0) :
    locate (BitVec.ofNat 16 (0x8000 + 2 * i)) 4 = .ok (.corrPair i) := by
  unfold locate
  rw [toNat_offset (by omega)]
  simp only
  rw [if_neg (by omega), if_neg (by omega), if_neg (by omega), if_pos (by omega), locateCorr, if_neg (by omega),
    if_pos (by omega), show (0x8000 + 2 * i - 0x8000) / 2 = i by omega]

theorem locate_recbuf {a n : Nat} (hn : n = 1 ∨ n = 2 ∨ n = 4) (ha : a % n = 0) (hl : a + n ≤ 8200) :
    locate (BitVec.ofNat 16 (0xA000 + a)) n = .ok (.recbuf a n) := by
  have : (0xA000 + a) % n = 0 := by rcases hn with rfl | rfl | rfl <;> omega
  unfold locate
  rw [toNat_offset (by omega)]
  simp only
  rw [if_neg (by omega), if_neg (by omega), if_neg (by omega), if_neg (by omega), if_pos (by omega), locateRecbuf,
    if_pos ⟨hn, this, by omega⟩, show 0xA000 + a - 0xA000 = a by omega]

/-- A located access of the record buffer is inside it. -/
theorem locate_recbuf_inside {off : BitVec 16} {n a k : Nat} (h : locate off n = .ok (.recbuf a k)) : a + k ≤ 8200 := by
  unfold locate at h
  simp only at h
  split at h
  · unfold locateReg at h
    split at h <;> cases h
  · split at h
    · cases h
    · split at h
      · unfold locateHist at h
        split at h <;> cases h
      · split at h
        · unfold locateCorr at h
          split at h
          · cases h
          · split at h <;> cases h
        · split at h
          · unfold locateRecbuf at h
            split at h
            · obtain ⟨rfl, rfl⟩ := Loc.recbuf.inj (Except.ok.inj h)
              omega
            · cases h
          · cases h

/-- The register file takes exactly the 32-bit accesses at multiples of 4 below 0x30. -/
theorem find_register (off n : Nat) :
    (∃ r, registers.find? (fun r => r.offset == off && n == 4) = some r) ↔ n = 4 ∧ off < 0x30 ∧ off % 4 = 0 := by
  constructor
  · rintro ⟨r, h⟩
    have h1 := List.find?_some h
    simp at h1
    obtain ⟨h1, rfl⟩ := h1
    cases r <;> simp [Reg.offset] at h1 <;> omega
  · rintro ⟨rfl, h1, h2⟩
    have : off = 0 ∨ off = 4 ∨ off = 8 ∨ off = 0xc ∨ off = 0x10 ∨ off = 0x14 ∨ off = 0x18 ∨ off = 0x1c ∨ off = 0x20 ∨
        off = 0x24 ∨ off = 0x28 ∨ off = 0x2c := by omega
    rcases this with rfl | rfl | rfl | rfl | rfl | rfl | rfl | rfl | rfl | rfl | rfl | rfl <;> exact ⟨_, rfl⟩

end Sys2Proof.Machine
end

