-- ==== Sys2Proof/Laws/Memory.lean ====
section
/-! SUPPORT. The record buffer's memory: what a read sees after a write, and that every operation keeps the canonical
form. -/

namespace Sys2Proof.Machine

namespace Memory

/-- An offset below every listed one reads as unlisted. -/
theorem read_of_forall_lt (n : Nat) (m : Memory) (a : Nat) (h : ∀ c ∈ m, a < c.1) : read n m a = unlisted n a := by
  induction m with
  | nil => rfl
  | cons c m ih =>
    obtain ⟨b, v⟩ := c
    have hb : a < b := h (b, v) (by simp)
    simp only [read, if_neg (by omega : ¬ a = b)]
    exact ih fun c hc => h c (by simp [hc])

/-- A cell put in front of a memory whose offsets are above it is what that offset reads as. -/
theorem read_cons (n a x : Nat) (v : Byte) (m : Memory) (h : ∀ c ∈ m, a < c.1) :
    read n (Memory.cons n a v m) x = if x = a then v else read n m x := by
  unfold Memory.cons
  split
  · next hv =>
    split
    · next hx => rw [hx, read_of_forall_lt n m a h, hv]
    · rfl
  · rfl

/-- The read of a write, in a memory whose offsets rise. -/
theorem read_write (n : Nat) (m : Memory) (a x : Nat) (v : Byte) (h : m.Pairwise fun c d => c.1 < d.1) :
    read n (write n m a v) x = if x = a then v else read n m x := by
  induction m with
  | nil => exact read_cons n a x v [] (by simp)
  | cons c m ih =>
    obtain ⟨b, w⟩ := c
    rw [List.pairwise_cons] at h
    unfold write
    split
    · next hab => exact read_cons n a x v _ (by
        intro c hc
        rcases List.mem_cons.mp hc with rfl | hc
        · exact hab
        · exact Nat.lt_trans hab (h.1 c hc))
    · split
      · next hab =>
        subst hab
        rw [read_cons n a x v m h.1]
        simp only [read]
        split <;> rfl
      · next hab hne =>
        simp only [read, ih h.2]
        split
        · next hx => simp [hx, show ¬ b = a by omega]
        · rfl

theorem mem_cons_offsets (n a : Nat) (v : Byte) (m : Memory) (c : Host.Cell) (h : c ∈ Memory.cons n a v m) :
    c = (a, v) ∧ v ≠ unlisted n a ∨ c ∈ m := by
  unfold Memory.cons at h
  split at h
  · exact .inr h
  · next hv =>
    rcases List.mem_cons.mp h with rfl | h
    · exact .inl ⟨rfl, hv⟩
    · exact .inr h

theorem pairwise_cons (n a : Nat) (v : Byte) (m : Memory) (hm : m.Pairwise fun c d => c.1 < d.1)
    (h : ∀ c ∈ m, a < c.1) : (Memory.cons n a v m).Pairwise fun c d => c.1 < d.1 := by
  unfold Memory.cons
  split
  · exact hm
  · exact List.pairwise_cons.mpr ⟨h, hm⟩

/-- A cell of a written memory is the written one or one that was there. -/
theorem mem_write (n : Nat) (m : Memory) (a : Nat) (v : Byte) (c : Host.Cell) (h : c ∈ write n m a v) :
    c = (a, v) ∧ v ≠ unlisted n a ∨ c ∈ m := by
  induction m with
  | nil => exact mem_cons_offsets n a v [] c h
  | cons d m ih =>
    obtain ⟨b, w⟩ := d
    unfold write at h
    split at h
    · exact mem_cons_offsets n a v _ c h
    · split at h
      · rcases mem_cons_offsets n a v _ c h with h | h
        · exact .inl h
        · exact .inr (by simp [h])
      · rcases List.mem_cons.mp h with rfl | h
        · exact .inr (by simp)
        · rcases ih h with h | h
          · exact .inl h
          · exact .inr (by simp [h])

theorem pairwise_write (n : Nat) (m : Memory) (a : Nat) (v : Byte) (hm : m.Pairwise fun c d => c.1 < d.1) :
    (write n m a v).Pairwise fun c d => c.1 < d.1 := by
  induction m with
  | nil => exact pairwise_cons n a v [] (by simp) (by simp)
  | cons d m ih =>
    obtain ⟨b, w⟩ := d
    have h := List.pairwise_cons.mp hm
    unfold write
    split
    · next hab => exact pairwise_cons n a v _ hm (by
        intro c hc
        rcases List.mem_cons.mp hc with rfl | hc
        · exact hab
        · exact Nat.lt_trans hab (h.1 c hc))
    · split
      · next hab => exact pairwise_cons n a v m h.2 (by subst hab; exact h.1)
      · next hab hne =>
        refine List.pairwise_cons.mpr ⟨fun c hc => ?_, ih h.2⟩
        rcases mem_write n m a v c hc with ⟨rfl, -⟩ | hc
        · show b < a
          omega
        · exact h.1 c hc

/-- A write inside the record keeps the canonical form. -/
theorem wf_write (n : Nat) (m : Memory) (a : Nat) (v : Byte) (ha : a < 8200) (h : wf n m) : wf n (write n m a v) := by
  refine ⟨pairwise_write n m a v h.1, fun c hc => ?_⟩
  rcases mem_write n m a v c hc with ⟨rfl, hv⟩ | hc
  · exact ⟨ha, hv⟩
  · exact h.2 c hc

theorem pairwise_store (n : Nat) (vs : List Byte) (m : Memory) (a : Nat) (hm : m.Pairwise fun c d => c.1 < d.1) :
    (store n m a vs).Pairwise fun c d => c.1 < d.1 := by
  induction vs generalizing m a with
  | nil => exact hm
  | cons v vs ih => exact ih _ _ (pairwise_write n m a v hm)

/-- Stores inside the record keep the canonical form. -/
theorem wf_store (n : Nat) (vs : List Byte) (m : Memory) (a : Nat) (ha : a + vs.length ≤ 8200) (h : wf n m) :
    wf n (store n m a vs) := by
  induction vs generalizing m a with
  | nil => exact h
  | cons v vs ih =>
    simp only [List.length_cons] at ha
    exact ih _ _ (by omega) (wf_write n m a v (by omega) h)

/-- The read of a store: the stored byte at its place, every other offset as before. -/
theorem read_store (n : Nat) (vs : List Byte) (m : Memory) (a x : Nat) (hm : m.Pairwise fun c d => c.1 < d.1) :
    read n (store n m a vs) x = if a ≤ x ∧ x < a + vs.length then vs.getD (x - a) 0 else read n m x := by
  induction vs generalizing m a with
  | nil => simp [store, show ¬ (a ≤ x ∧ x < a) by omega]
  | cons v vs ih =>
    rw [store, ih _ _ (pairwise_write n m a v hm), read_write n m a x v hm]
    simp only [List.length_cons]
    by_cases hx : x = a
    · subst hx
      simp
    · by_cases hin : a + 1 ≤ x ∧ x < a + 1 + vs.length
      · rw [if_pos hin, if_pos (by omega), show x - a = (x - (a + 1)) + 1 by omega]
        rfl
      · rw [if_neg hin, if_neg hx, if_neg (by omega)]

/-- The empty memory is canonical. -/
theorem wf_nil (n : Nat) : wf n [] := by simp [wf]

end Memory

/-- What a store does to each byte of the record buffer. -/
theorem recAt_recStore (s : State) (a x : Nat) (vs : List Byte) (h : s.recbuf.Pairwise fun c d => c.1 < d.1) :
    (s.recStore a vs).recAt x = if a ≤ x ∧ x < a + vs.length then vs.getD (x - a) 0 else s.recAt x :=
  Memory.read_store s.env.resets vs s.recbuf a x h

end Sys2Proof.Machine
end

