-- ==== Sys2Proof/Laws/PerInstr.lean ====
section
/-! SUPPORT. The family `EncodesItsRow`: the word of each well-formed command selects the row of
spec/30_encoding.md R63 with its mnemonic. One lemma per constructor. -/

namespace Sys2Proof.Laws.EncodesItsRow

/-- The encoding of `i` selects the table's row with `i`'s mnemonic. -/
def Statement (i : Instr) : Prop :=
  i.wellFormed = true → ∃ r ∈ table, r.mnemonic = i.mnemonic ∧ r.selects (encode i) = true

/-- A row without a constraint on `arg` selects a word that its mask turns into its match. -/
theorem selects_of_and {r : Row} {w : Word} (hz : r.nonZeroArg = false) (h : w &&& r.mask = r.matchBits) :
    r.selects w = true := by
  simp [Row.selects, hz, h]

theorem and_maskU16_packWord (op : Byte) (arg : Half) : packWord op arg &&& 0xFFFF0000#32 = packWord op 0 := by
  have := arg.isLt
  apply BitVec.eq_of_toNat_eq
  rw [toNat_and_maskU16, toNat_packWord, toNat_packWord]
  simp
  omega

theorem and_maskL12_packWord (op : Byte) (level : Level) :
    packWord op (0#4 ++ level) &&& 0xFFFFF000#32 = packWord op 0 := by
  have := level.isLt
  apply BitVec.eq_of_toNat_eq
  rw [toNat_and_maskL12, toNat_packWord, toNat_packWord, toNat_widenLevel]
  simp
  omega

theorem wgInit : Statement .wgInit := fun _ => by decide
theorem wgSett (level : Level) : Statement (.wgSett level) := fun _ =>
  ⟨⟨"WG.SETT", 0x02000000#32, 0xFFFFF000#32, false⟩, by simp [table], rfl,
    selects_of_and rfl (and_maskL12_packWord 0x02#8 level)⟩
theorem wgFeed : Statement .wgFeed := fun _ => by decide
theorem smpRaw : Statement .smpRaw := fun _ => by decide
theorem smpAvg (n : Half) : Statement (.smpAvg n) := fun h =>
  ⟨⟨"SMP.AVG", 0x11000000#32, 0xFFFF0000#32, true⟩, by simp [table], rfl, by
    have hn : n ≠ 0 := by simpa [Instr.wellFormed] using h
    have := and_maskU16_packWord 0x11#8 n
    simp only [Row.selects, encode, this, argOf_packWord]
    simpa [bne_iff_ne] using ⟨by decide, hn⟩⟩
theorem hstClr : Statement .hstClr := fun _ => by decide
theorem hstRec (code : Half) : Statement (.hstRec code) := fun _ =>
  ⟨⟨"HST.REC", 0x21000000#32, 0xFFFF0000#32, false⟩, by simp [table], rfl,
    selects_of_and rfl (and_maskU16_packWord 0x21#8 code)⟩
theorem hstCollect : Statement .hstCollect := fun _ => by decide
theorem lutBuild : Statement .lutBuild := fun _ => by decide
theorem lutSmooth : Statement .lutSmooth := fun _ => by decide
theorem lutCorrect (raw : Level) : Statement (.lutCorrect raw) := fun _ =>
  ⟨⟨"LUT.CORRECT", 0x32000000#32, 0xFFFFF000#32, false⟩, by simp [table], rfl,
    selects_of_and rfl (and_maskL12_packWord 0x32#8 raw)⟩
theorem recStore : Statement .recStore := fun _ => by decide
theorem recLoad (size : Half) : Statement (.recLoad size) := fun _ =>
  ⟨⟨"REC.LOAD", 0x41000000#32, 0xFFFF0000#32, false⟩, by simp [table], rfl,
    selects_of_and rfl (and_maskU16_packWord 0x41#8 size)⟩

end Sys2Proof.Laws.EncodesItsRow
end

