-- ==== Sys2Proof/Laws/Tables.lean ====
section
/-! SUPPORT. The tables: the counts and the walk of the LUT Builder, the interpolation of the Boundary Smoother, and the
byte image of the Calibration Record. -/

namespace Sys2Proof.Machine

/-! ## 16-bit entries -/

theorem toInt_ofInt16 {x : Int} (h1 : -32768 ≤ x) (h2 : x < 32768) : (BitVec.ofInt 16 x).toInt = x := by
  rw [BitVec.toInt_ofInt, Int.bmod_def]
  omega

theorem entryAt_range (t : Vector Half 4096) (i : Nat) : -32768 ≤ entryAt t i ∧ entryAt t i ≤ 32767 := by
  have h1 := BitVec.le_toInt (t.getD i 0)
  have h2 := BitVec.toInt_lt (x := t.getD i 0)
  unfold entryAt
  generalize BitVec.toInt _ = x at *
  norm_num at h1 h2
  omega

/-! ## The LUT Builder's counts (spec/43_lut_builder.md R127) -/

theorem length_counts (s : State) : s.counts.length = 4096 := by simp [State.counts]

theorem getD_counts (s : State) {i : Nat} (hi : i < 4096) : s.counts.getD i 0 = (s.histAt i).toNat := by
  simp [State.counts, State.histAt, List.getD, Vector.getD, hi]

theorem counts_eq (s : State) : s.counts = (List.range 4096).map fun i => (s.histAt i).toNat := by
  have hl : s.counts.length = ((List.range 4096).map fun i => (s.histAt i).toNat).length := by
    rw [length_counts, List.length_map, List.length_range]
  apply List.ext_getElem hl
  intro i h1 h2
  have hi : i < 4096 := (length_counts s) ▸ h1
  have := getD_counts s hi
  rw [List.getD_eq_getElem _ _ h1] at this
  rw [this, List.getElem_map, List.getElem_range]

theorem toNat_histAt_ne_zero (s : State) (i : Nat) : (s.histAt i).toNat ≠ 0 ↔ s.histAt i ≠ 0 := by
  rw [not_iff_not]
  exact ⟨fun h => BitVec.eq_of_toNat_eq (by simpa using h), fun h => by rw [h]; rfl⟩

/-- The builder's test for an empty histogram (R134). -/
theorem counts_all_zero (s : State) : s.counts.all (· = 0) = true ↔ ∀ i, i < 4096 → s.histAt i = 0 := by
  rw [counts_eq]
  simp
  refine forall₂_congr fun i _ => ?_
  rw [← not_iff_not]
  exact toNat_histAt_ne_zero s i

theorem lowestCode_eq {s : State} {a : Nat} (ha : a < 4096) (h1 : s.histAt a ≠ 0) (h2 : ∀ i, i < a → s.histAt i = 0) :
    lowestCode s.counts = a := by
  unfold lowestCode
  rw [counts_eq, List.findIdx_eq (by simpa using ha)]
  refine ⟨by simpa using (toNat_histAt_ne_zero s a).2 h1, fun i hi => ?_⟩
  simp [h2 i hi]

theorem highestCode_eq {s : State} {b : Nat} (hb : b < 4096) (h1 : s.histAt b ≠ 0)
    (h2 : ∀ i, i < 4096 → b < i → s.histAt i = 0) : highestCode s.counts = b := by
  have : s.counts.reverse.findIdx (· ≠ 0) = 4095 - b := by
    rw [counts_eq, List.findIdx_eq (by simp; omega)]
    refine ⟨?_, fun i hi => ?_⟩
    · simp [show 4096 - 1 - (4095 - b) = b by omega]
      exact (toNat_histAt_ne_zero s b).2 h1
    · simp [h2 (4096 - 1 - i) (by omega) (by omega)]
  unfold highestCode
  rw [this]
  omega

theorem take_range_of_le {a n k : Nat} (h : k ≤ n) : (List.range' a n).take k = List.range' a k := by
  have : List.range' a n = List.range' a k ++ List.range' (a + k) (n - k) := by
    rw [List.range'_append_1]
    congr 1
    omega
  rw [this, List.take_left' (by simp)]

/-- The counts between the lowest and the highest observed code. -/
theorem counts_inRange (s : State) {a b : Nat} (hab : a ≤ b) (hb : b < 4096) :
    (s.counts.drop a).take (b - a + 1) = (List.range' a (b - a + 1)).map fun i => (s.histAt i).toNat := by
  rw [counts_eq, ← List.map_drop, ← List.map_take]
  congr 1
  rw [List.range_eq_range', List.drop_range', take_range_of_le (by omega)]
  congr 1
  omega

/-! ## The walk (R126, R129, R131) -/

theorem length_walk (cmin n total code c : Nat) (hs : List Nat) : (walk cmin n total code c hs).length = hs.length := by
  induction hs generalizing code c with
  | nil => rfl
  | cons h hs ih => simp [walk, ih]

/-- The `k`-th entry of the walk: the ideal index over the samples of the codes below, less the code. -/
theorem getD_walk (cmin n total : Nat) (hs : List Nat) {k : Nat} (hk : k < hs.length) (code c : Nat) :
    (walk cmin n total code c hs).getD k 0 =
      BitVec.ofInt 16
        ((cmin : Int) + (idealIndex (c + (hs.take k).sum) (hs.getD k 0) n total : Int) - ((code + k : Nat) : Int)) := by
  induction hs generalizing k code c with
  | nil => simp at hk
  | cons h hs ih =>
    cases k with
    | zero => simp [walk]
    | succ k =>
      simp only [walk, List.getD_cons_succ, List.take_succ_cons, List.sum_cons]
      rw [ih (by simpa using hk), show code + 1 + k = code + (k + 1) by omega, Nat.add_assoc]

/-- The ideal index does not pass the range. -/
theorem idealIndex_le {c h n total : Nat} (ht : 0 < total) (hc : c + h ≤ total) : idealIndex c h n total ≤ n := by
  unfold idealIndex
  rw [← Nat.lt_add_one_iff, Nat.div_lt_iff_lt_mul (by omega)]
  have : (2 * c + h) * n ≤ 2 * total * n := Nat.mul_le_mul_right _ (by omega)
  have : (n + 1) * (2 * total) = 2 * total * n + 2 * total := by ring
  omega

theorem idealIndex_mono {c c' h h' : Nat} (n total : Nat) (hh : 2 * c + h ≤ 2 * c' + h') :
    idealIndex c h n total ≤ idealIndex c' h' n total := by
  unfold idealIndex
  apply Nat.div_le_div_right
  have := Nat.mul_le_mul_right n hh
  omega

/-! ## The Boundary Smoother (spec/44_boundary_smoother.md R141, R143) -/

theorem interpolate_between (aL aR : Int) {k : Nat} (h1 : 1 ≤ k) (h2 : k ≤ 31) :
    (aL ≤ aR → aL ≤ interpolate aL aR k ∧ interpolate aL aR k ≤ aR) ∧
    (aR ≤ aL → aR ≤ interpolate aL aR k ∧ interpolate aL aR k ≤ aL) := by
  unfold interpolate
  refine ⟨fun h => ?_, fun h => ?_⟩
  · have h3 : 0 ≤ (k : Int) * (aR - aL) := Int.mul_nonneg (by omega) (by omega)
    have h4 : (k : Int) * (aR - aL) ≤ 31 * (aR - aL) := mul_le_mul_of_nonneg_right (by omega) (by omega)
    generalize (k : Int) * (aR - aL) = x at *
    omega
  · have h3 : (k : Int) * (aR - aL) ≤ 0 := mul_nonpos_of_nonneg_of_nonpos (by omega) (by omega)
    have h4 : 31 * (aR - aL) ≤ (k : Int) * (aR - aL) := mul_le_mul_of_nonpos_right (by omega) (by omega)
    generalize (k : Int) * (aR - aL) = x at *
    omega

theorem getD_smoothBoundary (t : Vector Half 4096) (b : Nat) {i : Nat} (hi : i < 4096) :
    (smoothBoundary t b).getD i 0 =
      if b - 16 < i ∧ i < b + 16 then
        BitVec.ofInt 16 (interpolate (entryAt t (b - 16)) (entryAt t (b + 16)) (i - (b - 16)))
      else t.getD i 0 := by
  unfold smoothBoundary
  simp only [Config.radius]
  rw [getD_tabulate _ _ _ _ hi]
  rfl

theorem smoothBoundary_outside (t : Vector Half 4096) {b i : Nat} (hi : i < 4096) (h : i ≤ b - 16 ∨ b + 16 ≤ i) :
    (smoothBoundary t b).getD i 0 = t.getD i 0 := by
  rw [getD_smoothBoundary _ _ hi, if_neg (by omega)]

theorem smoothBoundary_inside (t : Vector Half 4096) {b k : Nat} (hb : 16 ≤ b) (hb2 : b + 16 < 4096) (h1 : 1 ≤ k)
    (h2 : k ≤ 31) :
    entryAt (smoothBoundary t b) (b - 16 + k) = interpolate (entryAt t (b - 16)) (entryAt t (b + 16)) k := by
  rw [entryAt, getD_smoothBoundary _ _ (by omega), if_pos (by omega), show b - 16 + k - (b - 16) = k by omega]
  have hi := interpolate_between (entryAt t (b - 16)) (entryAt t (b + 16)) h1 h2
  have := entryAt_range t (b - 16)
  have := entryAt_range t (b + 16)
  generalize interpolate _ _ _ = x at *
  rcases le_total (entryAt t (b - 16)) (entryAt t (b + 16)) with hle | hle
  · have := hi.1 hle
    rw [toInt_ofInt16] <;> omega
  · have := hi.2 hle
    rw [toInt_ofInt16] <;> omega

theorem smoothTable_eq (t : Vector Half 4096) :
    smoothTable t = smoothBoundary (smoothBoundary (smoothBoundary (smoothBoundary t 512) 1536) 2560) 3584 := rfl

/-! ## The byte image of the record (spec/46_calibration_record.md R155) -/

theorem length_flatMap_le16 (l : List Half) : (l.flatMap le16).length = 2 * l.length := by
  induction l with
  | nil => rfl
  | cons a l ih =>
    rw [List.flatMap_cons, List.length_append, ih]
    simp [le16]
    omega

theorem getD_flatMap_le16 (l : List Half) {i : Nat} (hi : i < l.length) :
    (l.flatMap le16).getD (2 * i) 0 = (l.getD i 0).extractLsb' 0 8 ∧
      (l.flatMap le16).getD (2 * i + 1) 0 = (l.getD i 0).extractLsb' 8 8 := by
  induction l generalizing i with
  | nil => simp at hi
  | cons a l ih =>
    cases i with
    | zero => exact ⟨rfl, rfl⟩
    | succ i =>
      have := ih (i := i) (by simpa using hi)
      rw [List.flatMap_cons, show 2 * (i + 1) = 2 * i + 1 + 1 by omega]
      exact this

theorem length_corr (s : State) : s.corr.toList.length = 4096 := s.corr.size_toArray

theorem getD_corr (s : State) (i : Nat) : s.corr.toList.getD i 0 = s.corr.getD i 0 := by
  by_cases hi : i < 4096 <;> simp [List.getD, Vector.getD, hi]

theorem length_recordBytes (s : State) : (recordBytes s).length = 8200 := by
  unfold recordBytes
  rw [List.length_append, List.length_append, List.length_append, length_flatMap_le16, length_corr]
  simp [le32, le16]

theorem getD_recordBytes_magic (s : State) {k : Nat} (h : k < 4) :
    (recordBytes s).getD k 0 = (le32 s.magic).getD k 0 := by
  unfold recordBytes
  rw [List.append_assoc, List.append_assoc, List.getD_append _ _ _ _ (by simpa [le32] using h)]

theorem getD_recordBytes_corr (s : State) {k : Nat} (h : k < 8192) :
    (recordBytes s).getD (4 + k) 0 = (s.corr.toList.flatMap le16).getD k 0 := by
  unfold recordBytes
  rw [List.append_assoc, List.append_assoc, List.getD_append_right _ _ _ _ (by simp [le32]),
    show (le32 s.magic).length = 4 from rfl, Nat.add_sub_cancel_left,
    List.getD_append _ _ _ _ (by rw [length_flatMap_le16, length_corr]; omega)]

theorem getD_recordBytes_range (s : State) {k : Nat} (h : k < 4) :
    (recordBytes s).getD (8196 + k) 0 = (le16 s.codeMin ++ le16 s.codeMax).getD k 0 := by
  have hl : (le32 s.magic ++ s.corr.toList.flatMap le16).length = 8196 := by
    rw [List.length_append, length_flatMap_le16, length_corr]
    simp [le32]
  unfold recordBytes
  rw [List.append_assoc (le32 s.magic ++ s.corr.toList.flatMap le16),
    List.getD_append_right _ _ _ _ (by rw [hl]; omega), hl, Nat.add_sub_cancel_left]

theorem toNat_recWord (s : State) (a : Nat) :
    (s.recWord a).toNat =
      (s.recAt a).toNat + 256 * (s.recAt (a + 1)).toNat + 65536 * (s.recAt (a + 2)).toNat +
        16777216 * (s.recAt (a + 3)).toNat := toNat_ofLe32 _ _ _ _

theorem toNat_recHalf (s : State) (a : Nat) :
    (s.recHalf a).toNat = (s.recAt a).toNat + 256 * (s.recAt (a + 1)).toNat := toNat_ofLe16 _ _

end Sys2Proof.Machine
end

