-- ==== Sys2Proof/Tests/Slice0.lean ====
section
/-! SUPPORT. Tests of the model against the vectors of spec/95_test_vectors.md (the V- names), the words of
spec/30_encoding.md R63 written out, the smoke test of WellFormed, and a witness for the hypotheses of each statement. -/

namespace Sys2Proof.Tests

open Sys2Proof.Machine

/-! ## Helpers -/

/-- The state after reset in an environment that lets the serializer take no step for a while. -/
def quiet : State := { State.reset with env := { Env.reset with schedule := List.replicate 64 0 } }

/-- `quiet` with a queue of host events. -/
def hosted (events : List HostEvent) : State := { quiet with env := { quiet.env with host := events } }

/-- The state a step or a command answers. -/
def after : Host.Outcome State Fault Refusal → State
  | .next s => s
  | .fault _ => State.reset
  | .refused _ => State.reset

/-- A histogram with one counter. -/
def oneCount (i : Nat) (v : Word) : Vector Word 4096 := (Vector.replicate 4096 0).setIfInBounds i v

/-- The histogram of V-B4: 4 at 10 and at 13. -/
def twoCounts : Vector Word 4096 := (oneCount 10 4).setIfInBounds 13 4

/-! ## WellFormed -/

theorem test_wellFormed_refuses_average_of_none : (Instr.smpAvg 0).wellFormed = false := by decide
theorem test_wellFormed_admits_largest_average : (Instr.smpAvg 65535).wellFormed = true := by decide
theorem test_wellFormed_admits_the_rest :
    [Instr.wgInit, .wgSett 4095, .wgFeed, .smpRaw, .hstClr, .hstRec 65535, .hstCollect, .lutBuild, .lutSmooth,
      .lutCorrect 0, .recStore, .recLoad 0].all Instr.wellFormed = true := by decide

/-! ## Decoding, each word written out from R60 and R63: `op`, `rsv`, `arg` -/

theorem test_decode_wgInit : decode 0b00000001_00000000_0000000000000000#32 = .ok .wgInit := by decide
theorem test_decode_wgSett : decode 0b00000010_00000000_0000100000000001#32 = .ok (.wgSett 2049) := by decide
theorem test_decode_wgFeed : decode 0b00000011_00000000_0000000000000000#32 = .ok .wgFeed := by decide
theorem test_decode_smpRaw : decode 0b00010000_00000000_0000000000000000#32 = .ok .smpRaw := by decide
theorem test_decode_smpAvg : decode 0b00010001_00000000_1000000000000010#32 = .ok (.smpAvg 32770) := by decide
theorem test_decode_hstClr : decode 0b00100000_00000000_0000000000000000#32 = .ok .hstClr := by decide
theorem test_decode_hstRec : decode 0b00100001_00000000_0001000000000000#32 = .ok (.hstRec 4096) := by decide
theorem test_decode_hstCollect : decode 0b00100010_00000000_0000000000000000#32 = .ok .hstCollect := by decide
theorem test_decode_lutBuild : decode 0b00110000_00000000_0000000000000000#32 = .ok .lutBuild := by decide
theorem test_decode_lutSmooth : decode 0b00110001_00000000_0000000000000000#32 = .ok .lutSmooth := by decide
theorem test_decode_lutCorrect : decode 0b00110010_00000000_0000011111010010#32 = .ok (.lutCorrect 2002) := by decide
theorem test_decode_recStore : decode 0b01000000_00000000_0000000000000000#32 = .ok .recStore := by decide
theorem test_decode_recLoad : decode 0b01000001_00000000_0010000000001000#32 = .ok (.recLoad 8200) := by decide

/-- V-E6 and V-E1: operation codes no row has. -/
theorem test_decode_unassigned :
    [0x00000000#32, 0x04000000#32, 0x12000000#32, 0x23000000#32, 0x33000000#32, 0x42000000#32, 0xFF000000#32].all
      (fun w => match decode w with | .ok _ => false | .error _ => true) = true := by decide

/-- V-E2 to V-E5: a broken format. -/
theorem test_decode_broken_format :
    [0x01000001#32, 0x02001000#32, 0x02010800#32, 0x11000000#32].all
      (fun w => match decode w with | .ok _ => false | .error _ => true) = true := by decide

/-- No two rows of the table select one word of a row. -/
theorem test_table_rows_distinct :
    table.Pairwise (fun r r' => r.selects r'.matchBits = false ∧ r'.selects r.matchBits = false) := by decide

/-- R66 and R67: the assembler text. -/
theorem test_asm_operand : (Instr.recLoad 8200).asm = "REC.LOAD 8200" := by decide
theorem test_asm_calRun :
    calRun.map encode = [0x22000000#32, 0x30000000#32, 0x31000000#32, 0x40000000#32] := by decide

/-- The host's numbering: the word as the bytes the hardware stores. -/
theorem test_decodeTableWord : decodeTableWord 32 0x320007D2 = some (.lutCorrect 2002) := by decide

/-! ## The generator -/

/-- V-W1, `TARGET` 1365: word 0 and word 1. -/
theorem test_genWord_first : genWord 0 1365 = (0xAA000000#32, 0x12492492#32) := by decide +kernel
theorem test_genWord_second : genWord 0xAA000000 1365 = (0x54000000#32, 0x49249249#32) := by decide +kernel

/-- V-W5: the first step overflows. -/
theorem test_genWord_overflow_first : genWord 0xFFF00000 1 = (0x01F00000#32, 0x80000000#32) := by decide +kernel

/-- V-W8, last row. -/
theorem test_wgInit :
    let t := after (exec .wgInit
      { quiet with acc := 0xA8000000, target := 1365, output := { quiet.output with q := [0x92492492], srcnt := 5 } })
    t.acc = 0 ∧ t.target = 0 ∧ t.output.q = [] ∧ t.output.srcnt = 0 ∧ t.status.ok = true := by decide +kernel

/-- V-W8, first row. -/
theorem test_wgSett :
    let t := after (exec (.wgSett 2048) { quiet with acc := 0x12300000, target := 7 })
    t.target = 2048 ∧ t.acc = 0x12300000#32 ∧ t.result = 0 ∧ t.status.ok = true := by decide +kernel

/-- V-W7, first row. -/
theorem test_wgFeed :
    let t := after (exec .wgFeed { quiet with target := 2048 })
    t.output.q = [0x55555555#32] ∧ t.acc = 0 ∧ t.result = 0x55555555#32 ∧ t.status.ok = true := by decide +kernel

/-- V-W7, second row: the queue is full. -/
theorem test_wgFeed_full :
    exec .wgFeed { quiet with acc := 0xAA000000, output := { quiet.output with q := List.replicate Config.qdepth 0 } } =
      .next (State.raise .queueFull
        { quiet with acc := 0xAA000000, output := { quiet.output with q := List.replicate Config.qdepth 0 } }) :=
  exec_wgFeed_of_full (by simp [State.qfull])

/-- V-W10: one word driven, most significant bit first. -/
theorem test_serializer :
    let o := Output.run 33 { quiet.output with q := [0x80000001#32] }
    o.out = true :: (List.replicate 30 false ++ [true]) ∧ o.srcnt = 0 ∧ o.dout = .undriven := by decide +kernel

/-! ## The sampler -/

/-- V-A1. -/
theorem test_smpRaw :
    let t := after (exec .smpRaw { quiet with target := 1024, env := { quiet.env with adc := [1019] } })
    t.result = 1019#32 ∧ t.output.q = [0x11111111#32] ∧ t.acc = 0 := by decide +kernel

/-- V-A5. -/
theorem test_smpAvg :
    (after (exec (.smpAvg 4) { quiet with env := { quiet.env with adc := [2047, 2048, 2048, 2049] } })).result =
      2048#32 := by decide +kernel

/-- V-A2: a tie rounds up. -/
theorem test_smpAvg_tie :
    (after (exec (.smpAvg 2) { quiet with env := { quiet.env with adc := [100, 101] } })).result = 101#32 := by
  decide +kernel

/-! ## The histogram -/

/-- V-H10. -/
theorem test_hstClr :
    let t := after (exec .hstClr { quiet with hist := oneCount 9 3, magic := 0xCA11B8ED })
    t.histAt 9 = 0 ∧ t.magic = 0xCA11B8ED#32 := by decide +kernel

/-- V-H1. -/
theorem test_hstRec : (after (exec (.hstRec 2000) { quiet with hist := oneCount 2000 7 })).histAt 2000 = 8#32 := by
  decide +kernel

/-- V-H5: the counter wraps. -/
theorem test_hstRec_wraps :
    let t := after (exec (.hstRec 5) { quiet with hist := oneCount 5 0xFFFFFFFF })
    t.histAt 5 = 0#32 ∧ t.status.ok = true := by decide +kernel

/-- V-H8: no sweep at all. -/
theorem test_hstCollect_no_sweep :
    let t := after (exec .hstCollect { quiet with hist := oneCount 9 3, numSweeps := 0, settleTicks := 0, target := 7 })
    t.histAt 9 = 0 ∧ t.target = 0 ∧ t.env.draws = 0 ∧ t.status.ok = true := by decide +kernel

/-- V-H11: a pass turns round at level 4095 (R115). -/
theorem test_hstCollect_turns :
    nextVisit 2 0 4095 = some (1, 4095) ∧ nextVisit 2 1 4095 = some (1, 4094) ∧ nextVisit 2 1 0 = none := by decide

/-! ## The lookup table -/

/-- V-B4. -/
theorem test_lutBuild :
    let t := after (exec .lutBuild { quiet with hist := twoCounts })
    t.corrAt 10 = 1 ∧ t.corrAt 11 = 1 ∧ t.corrAt 12 = 0 ∧ t.codeMin = 10 ∧ t.codeMax = 13 ∧ t.valid = true := by
  decide +kernel

/-- V-B6: above the range. -/
theorem test_lutBuild_above :
    (after (exec .lutBuild { quiet with hist := (oneCount 0 1000).setIfInBounds 1 1 })).corrAt 4095 = 1 := by
  decide +kernel

/-- V-M1. -/
theorem test_lutSmooth :
    let t := after (exec .lutSmooth { quiet with corr := tabulate 4096 fun i => if i < 512 then 0 else 8 })
    t.corrAt 496 = 0 ∧ t.corrAt 499 = 1 ∧ t.corrAt 512 = 4 ∧ t.corrAt 527 = 8 := by decide +kernel

/-- V-M5: extreme anchors. -/
theorem test_lutSmooth_extreme :
    let v := smoothBoundary (tabulate 4096 fun i => if i = 3568 then 0x8000 else if i = 3600 then 0x7FFF else 0) 3584
    entryAt v 3569 = -30720 ∧ entryAt v 3584 = -1 ∧ entryAt v 3599 = 30719 := by decide +kernel

/-- V-C1. -/
theorem test_lutCorrect :
    (after (exec (.lutCorrect 2002)
      { quiet with magic := 0xCA11B8ED, corr := (Vector.replicate 4096 0).setIfInBounds 2002 0xFFFF })).result =
      2001#32 := by decide +kernel

/-- V-C3: clamped high. -/
theorem test_lutCorrect_clamps :
    (after (exec (.lutCorrect 4095)
      { quiet with magic := 0xCA11B8ED, corr := (Vector.replicate 4096 0).setIfInBounds 4095 1 })).result =
      4095#32 := by decide +kernel

/-! ## The record -/

/-- V-R1: the first eight bytes. -/
theorem test_recStore :
    (recordBytes { quiet with
      magic := 0xCA11B8ED, corr := ((Vector.replicate 4096 0).setIfInBounds 0 0xFFFF).setIfInBounds 1 2 }).take 8 =
      [0xED#8, 0xB8#8, 0x11#8, 0xCA#8, 0xFF#8, 0xFF#8, 0x02#8, 0x00#8] := by decide +kernel

/-- The bytes of a valid magic. -/
def magicCells : Memory := [(0, 0xED), (1, 0xB8), (2, 0x11), (3, 0xCA)]

/-- V-R6: the range is loaded unchecked. -/
theorem test_recLoad :
    let t := after (exec (.recLoad 8200)
      { quiet with recbuf := magicCells ++ [(8196, 0xFF), (8197, 0xFF), (8198, 0x00), (8199, 0x00)] })
    t.codeMin = 65535 ∧ t.codeMax = 0 ∧ t.valid = true ∧ t.status.ok = true := by decide +kernel

/-- V-R4: the wrong size. -/
theorem test_recLoad_wrong_size :
    (after (exec (.recLoad 8201) { quiet with recbuf := magicCells })).status =
      { ok := false, ill := false, cause := .dataInvalid } := by decide +kernel

/-! ## Steps and the host's accesses -/

/-- V-E9: `STATUS` after reset. -/
theorem test_status_reset : State.reset.statusWord = 0x00000008#32 := by decide

/-- V-E1: a reserved word, from reset. -/
theorem test_step_reserved : (after (step (quiet.withFetchWord 32 0x00000000))).statusWord = 0x00000418#32 := by
  decide +kernel

/-- V-W8 as a step. -/
theorem test_step_command : (after (step (quiet.withFetchWord 32 0x02000FFF))).target = 4095 := by decide +kernel

/-- V-E8: the sticky flag is cleared by a write of 1 and by no other. -/
theorem test_write_ill :
    let s := State.raise .illegalCommand quiet
    (after (hostWrite 0x004 4 0x10 s)).status.ill = false ∧ (after (hostWrite 0x004 4 0xFFFFFFEF s)).status.ill = true := by
  decide +kernel

/-- V-X1 and V-X2. -/
theorem test_read_windows :
    (after (hostRead 0x5F40 4 { quiet with hist := oneCount 2000 0x200 })).env.rdata = 0x200#32 ∧
    (after (hostRead 0x8FA4 2 { quiet with corr := (Vector.replicate 4096 0).setIfInBounds 2002 0xFFFF })).env.rdata =
      0xFFFF#32 := by decide +kernel

/-- V-X3: the record's magic, little-endian. -/
theorem test_read_recbuf : (after (hostRead 0xA000 4 { quiet with recbuf := magicCells })).env.rdata = 0xCA11B8ED#32 := by
  decide +kernel

/-- V-X6. -/
theorem test_write_numSweeps : (after (hostWrite 0x018 4 0x00000104 quiet)).numSweeps = 4 := by decide +kernel

/-- V-X8: a reserved offset is refused. -/
theorem test_read_reserved : hostRead 0x030 4 quiet = .refused (.reservedOffset 0x30) := by rfl

/-! ## Witnesses: states and operands that meet the hypotheses of the statements

Named after the statement; where a statement has several clauses, one witness a clause. -/

theorem next_ne_none (o : State) : ∃ t, (Host.Outcome.next o : Host.Outcome State Fault Refusal) = .next t := ⟨o, rfl⟩

theorem witness_DecodeOfEncodeIsTheCommand : (Instr.smpAvg 1).wellFormed = true := by decide

theorem witness_EncodeOfDecodeIsTheWord : decode 0x32000FFF#32 = .ok (.lutCorrect 4095) := by decide

theorem witness_WordDecodesToTheRowThatSelectsIt :
    ∃ r ∈ table, r.selects 0x1100FFFF#32 = true := by decide

/-- One word a clause: the operation code, `rsv`, Z, L12, N16. -/
theorem witness_ReservedWordRaisesIllegalCommand :
    ∀ w ∈ [0xFF000000#32, 0x01010000#32, 0x01000001#32, 0x02001000#32, 0x11000000#32],
      (∀ r ∈ table, r.selects w = false) ∧
      (hosted [.write 0 4 w]).seq = .idle ∧ (hosted [.write 0 4 w]).env.host = .write 0 4 w :: [] := by
  intro w h
  refine ⟨?_, rfl, rfl⟩
  simp only [List.mem_cons, List.not_mem_nil, or_false] at h
  rcases h with rfl | rfl | rfl | rfl | rfl <;> decide

theorem witness_StepRunsTheDecodedCommand :
    (hosted [.write 0 4 0x11000001]).seq = .idle ∧
    (hosted [.write 0 4 0x11000001]).env.host = .write 0 4 0x11000001#32 :: [] ∧
    decode 0x11000001#32 = .ok (.smpAvg 1) ∧ (Instr.smpAvg 1).wellFormed = true :=
  ⟨rfl, rfl, by decide, by decide⟩

theorem witness_StepPerformsTheHostAccess_read : (hosted [.read 0 4]).env.host = .read 0 4 :: [] := rfl

theorem witness_StepPerformsTheHostAccess_write :
    (hosted [.write 4 4 0x10]).env.host = .write 4 4 0x10#32 :: [] ∧ ¬ ((4 : BitVec 16) = 0 ∧ 4 = 4) ∧
    (hosted [.write 0 2 0x10]).env.host = .write 0 2 0x10#32 :: [] ∧ ¬ ((0 : BitVec 16) = 0 ∧ 2 = 4) :=
  ⟨rfl, by decide, rfl, by decide⟩

/-- A collection in flight. -/
def collecting : State := { quiet with seq := .collect 4 128 1 0 0 (.settle 0) }

theorem witness_HostIsHeldOffWhileACommandRuns : collecting.seq ≠ .idle ∧ collecting.resetNext = false := by decide

theorem witness_StepFromIdleEndsIdle :
    (hosted [.write 0 4 0x10000000]).seq = .idle ∧
      ∃ t, step (hosted [.write 0 4 0x10000000]) = .next t := ⟨rfl, _, rfl⟩

theorem witness_CommandIsTheRunOfItsMicroSteps : quiet.resetNext = false ∧ (1 : Half) ≠ 0 := ⟨rfl, by decide⟩

theorem witness_IdleEngineOnlyDrainsTheQueue :
    let s := { quiet with output := { quiet.output with q := [1] } }
    s.seq = .idle ∧ s.env.host = [] := ⟨rfl, rfl⟩

theorem witness_ResetEventRestoresTheResetState :
    ∃ rest, ({ collecting with env := { collecting.env with host := [.reset] } } : State).env.host = .reset :: rest :=
  ⟨[], rfl⟩

/-- `load` with the last word, `shift` of the last bit with and without a word to follow, and starvation. -/
theorem witness_SerializerLoadsShiftsOrStarves :
    (∃ w rest, ({ quiet.output with q := [7] } : Output).q = w :: rest ∧ quiet.output.srcnt = 0) ∧
    0 < ({ quiet.output with srcnt := 1 } : Output).srcnt ∧
    0 < ({ quiet.output with srcnt := 1, q := [7] } : Output).srcnt ∧
    quiet.output.srcnt = 0 ∧ quiet.output.q = [] :=
  ⟨⟨7, [], rfl, rfl⟩, by decide, by decide, rfl, rfl⟩

theorem witness_OnlyInitAndResetDiscardBits :
    (hosted [.write 0 4 0x03000000]).resetNext = false ∧
    (hosted [.write 0 4 0x03000000]).nextCommand ≠ some .wgInit ∧
    ∃ t, step (hosted [.write 0 4 0x03000000]) = .next t := ⟨by decide, by decide, _, rfl⟩

theorem witness_WgFeedQueuesTheNextWord : quiet.output.q.length ≠ Config.qdepth := by
  simp [quiet, State.reset, State.resetAt, Config.qdepth]

theorem witness_WgFeedOnAFullQueueChangesNothing :
    ({ quiet.output with q := List.replicate Config.qdepth 0 } : Output).q.length = Config.qdepth := by simp

theorem witness_SmpAvgReturnsTheRoundedMean : (1 : Half) ≠ 0 ∧ (65535 : Half) ≠ 0 := by decide

theorem witness_AverageNeverWraps : (65535 : Half) ≠ 0 := by decide

/-- The largest code that counts and the least that does not. -/
theorem witness_HstRecCountsOneCode : (4095 : Half).toNat ≤ 4095 ∧ 4095 < (4096 : Half).toNat := by decide

theorem witness_HistogramConservation :
    (∀ c, c < 4096 → ((List.range (collectSamples quiet)).countP fun i => (quiet.env.answer i).toNat = c) < 2 ^ 32) ∧
    ∃ t, exec .hstCollect quiet = .next t := by
  refine ⟨fun c _ => ?_, _, exec_hstCollect quiet⟩
  have h := List.countP_le_length (p := fun i => decide ((quiet.env.answer i).toNat = c))
    (l := List.range (collectSamples quiet))
  rw [List.length_range] at h
  exact Nat.lt_of_le_of_lt h (by decide +kernel)

/-- The first and the last sample of the first and the last pass of the reset configuration. -/
theorem witness_IdealConverterGivesAUniformHistogram_samples :
    (0 < quiet.numSweeps.toNat ∧ 0 < 4096 ∧ 0 < quiet.samplesPerLevel.toNat) ∧
    (3 < quiet.numSweeps.toNat ∧ 4095 < 4096 ∧ 127 < quiet.samplesPerLevel.toNat) := by decide

/-- Two sweeps, one up and one down, one sample a level, the converter answering with the level. -/
theorem witness_IdealConverterGivesAUniformHistogram :
    let s := { quiet with
      numSweeps := 2, samplesPerLevel := 1,
      env := { quiet.env with
        adc := (List.range 8192).map fun i => BitVec.ofNat 16 (if i < 4096 then i else 8191 - i) } }
    collectSamples s = 8192 ∧
    ∀ i, i < collectSamples s → (s.env.answer i).toNat = sampleLevel s.samplesPerLevel.toNat i := by
  intro s
  have h : collectSamples s = 8192 := by decide +kernel
  refine ⟨h, fun i hi => ?_⟩
  rw [h] at hi
  have h1 : s.env.answer i = BitVec.ofNat 16 (if i < 4096 then i else 8191 - i) := by
    have ha : s.env.adc = (List.range 8192).map fun i => BitVec.ofNat 16 (if i < 4096 then i else 8191 - i) := by
      simp only [s]
    rw [Env.answer, ha, List.getElem?_map, List.getElem?_range hi, Option.map_some, Option.getD_some]
  have h2 : sampleLevel s.samplesPerLevel.toNat i = if i < 4096 then i else 8191 - i := by
    have hl : s.samplesPerLevel.toNat = 1 := by simp [s]
    rw [hl, sampleLevel, Nat.div_one]
    split <;> split <;> omega
  rw [h1, h2, BitVec.toNat_ofNat]
  split <;> omega

theorem witness_LutBuildOfAnEmptyHistogramFails : ∀ i, i < 4096 → quiet.histAt i = 0 := fun i hi =>
  getD_replicate 4096 0 i 0 hi

/-- The counters of `twoCounts`. -/
theorem histAt_twoCounts (i : Nat) (hi : i < 4096) :
    ({ quiet with hist := twoCounts } : State).histAt i = if i = 13 then 4 else if i = 10 then 4 else 0 := by
  show twoCounts.getD i 0 = _
  unfold twoCounts oneCount
  rw [getD_setIfInBounds _ _ _ _ _ (by omega), getD_setIfInBounds _ _ _ _ _ (by omega), getD_replicate _ _ _ _ hi]

/-- V-B4: also the witness of BuiltCodesNeverGoBackwards. -/
theorem witness_LutBuildEqualisesTheHistogram :
    let s := { quiet with hist := twoCounts }
    10 ≤ 13 ∧ 13 < 4096 ∧ s.histAt 10 ≠ 0 ∧ s.histAt 13 ≠ 0 ∧
      (∀ i, i < 4096 → (i < 10 ∨ 13 < i) → s.histAt i = 0) ∧ ∃ t, exec .lutBuild s = .next t := by
  intro s
  refine ⟨by omega, by omega, ?_, ?_, fun i hi h => ?_, _, rfl⟩
  · rw [histAt_twoCounts 10 (by omega)]
    decide
  · rw [histAt_twoCounts 13 (by omega)]
    decide
  · rw [histAt_twoCounts i hi, if_neg (by omega), if_neg (by omega)]

/-- The whole range observed: the lowest and the highest code are the boundaries. -/
theorem witness_LutBuildEqualisesTheHistogram_full :
    let s := { quiet with hist := Vector.replicate 4096 100 }
    (0 : Nat) ≤ 4095 ∧ 4095 < 4096 ∧ s.histAt 0 ≠ 0 ∧ s.histAt 4095 ≠ 0 ∧
      ∀ i, i < 4096 → (i < 0 ∨ 4095 < i) → s.histAt i = 0 := by
  intro s
  have h : ∀ i, i < 4096 → s.histAt i = 100#32 := fun i hi => getD_replicate 4096 100#32 i 0 hi
  refine ⟨by omega, by omega, ?_, ?_, fun i hi hc => absurd hc (by omega)⟩
  · rw [h 0 (by omega)]
    decide
  · rw [h 4095 (by omega)]
    decide

theorem witness_BuiltCodesNeverGoBackwards :
    ∃ t, exec .lutBuild { quiet with hist := twoCounts } = .next t := ⟨_, rfl⟩

theorem witness_BuilderRoundsTiesDown : 0 < 1 := by decide

/-- V-B1. -/
theorem witness_UniformHistogramNeedsNoCorrection :
    (100 : Word) ≠ 0 ∧ ∀ i, i < 4096 → ({ quiet with hist := Vector.replicate 4096 100 } : State).histAt i = 100#32 :=
  ⟨by decide, fun i hi => getD_replicate 4096 100#32 i 0 hi⟩

/-- The first and the last entry between the anchors of a boundary, and the anchors. -/
theorem witness_LutSmoothInterpolatesAcrossTheBoundaries :
    (1 ≤ 1 ∧ 1 ≤ 31) ∧ (1 ≤ 31 ∧ 31 ≤ 31) ∧
    (∀ b ∈ [512, 1536, 2560, 3584], 496 ≤ b - 16 ∨ b + 16 ≤ 496) ∧
    (∀ b ∈ [512, 1536, 2560, 3584], 528 ≤ b - 16 ∨ b + 16 ≤ 528) := by decide

theorem witness_InterpolationRoundsBetweenTheAnchors : 1 ≤ 1 ∧ 31 ≤ 31 := by decide

theorem witness_LutCorrectAddsAndClamps : ({ quiet with magic := 0xCA11B8ED } : State).magic = 0xCA11B8ED#32 := rfl

theorem witness_LutCorrectBeforeCalibrationIsInRange : quiet.magic ≠ 0xCA11B8ED#32 := by decide

/-- A table just built, and two codes corrected with it. -/
theorem witness_CorrectionOfABuiltTableIsMonotone :
    let s := { quiet with hist := twoCounts }
    (∃ i, i < 4096 ∧ s.histAt i ≠ 0) ∧
    ∃ t u v, exec .lutBuild s = .next t ∧ (0 : Level).toNat ≤ (4095 : Level).toNat ∧
      exec (.lutCorrect 0) t = .next u ∧ exec (.lutCorrect 4095) t = .next v := by
  intro s
  refine ⟨⟨10, by omega, ?_⟩, _, _, _, rfl, by decide, rfl, rfl⟩
  rw [histAt_twoCounts 10 (by omega)]
  decide

theorem witness_RecStoreWritesTheLayout : Memory.wf quiet.env.resets quiet.recbuf := Memory.wf_nil _

theorem witness_RecLoadOfAValidRecordLoadsIt :
    let s := { quiet with recbuf := magicCells }
    (8200 : Half).toNat = 8200 ∧
    (s.recAt 0).toNat + 256 * (s.recAt 1).toNat + 65536 * (s.recAt 2).toNat + 16777216 * (s.recAt 3).toNat =
      0xCA11B8ED := by decide +kernel

/-- V-R4 and V-R3: a wrong size, and a wrong magic of the right size. -/
theorem witness_RecLoadOfAnInvalidRecordChangesNothing :
    let s := { quiet with recbuf := [(0, 0xEC), (1, 0xB8), (2, 0x11), (3, 0xCA)] }
    (8199 : Half).toNat ≠ 8200 ∧ (8200 : Half).toNat = 8200 ∧
    (s.recAt 0).toNat + 256 * (s.recAt 1).toNat + 65536 * (s.recAt 2).toNat + 16777216 * (s.recAt 3).toNat ≠
      0xCA11B8ED := by decide +kernel

theorem witness_StoreThenLoadRestoresTheCalibration :
    let s := { quiet with magic := 0xCA11B8ED }
    Memory.wf s.env.resets s.recbuf ∧ s.magic = 0xCA11B8ED#32 ∧
    ∃ t u : State, exec .recStore s = .next t ∧ u.recbuf = t.recbuf ∧ u.env.resets = t.env.resets ∧ u.corr ≠ s.corr := by
  intro s
  refine ⟨Memory.wf_nil _, rfl, _, { State.recStore 0 (recordBytes s) s with corr := tabulate 4096 fun _ => 1 },
    exec_recStore s, rfl, rfl, fun h => ?_⟩
  have h1 : (tabulate 4096 fun _ => (1 : Half)).getD 0 0 = 1 := getD_tabulate _ _ _ _ (by omega)
  have h2 : s.corr.getD 0 0 = 0 := getD_replicate 4096 0 0 0 (by omega)
  have h0 : (tabulate 4096 fun _ => (1 : Half)).getD 0 0 = s.corr.getD 0 0 := congrArg (fun v => v.getD 0 0) h
  rw [h1, h2] at h0
  exact absurd h0 (by decide)

/-- A second state with the same queue. -/
theorem witness_RegisterReadsReturnTheRegister_again :
    ({ quiet with acc := 0x12300000 } : State).output.q = quiet.output.q := rfl

/-- The empty queue, and the longest whose length fits the register. -/
theorem witness_RegisterReadsReturnTheRegister :
    quiet.output.q.length < 2 ^ 32 ∧ ∃ o : Output, o.q.length = 2 ^ 32 - 1 ∧ o.q.length < 2 ^ 32 := by
  have h : ∀ n, ∃ o : Output, o.q.length = n := fun n =>
    ⟨{ quiet.output with q := List.replicate n 0 }, List.length_replicate⟩
  obtain ⟨o, ho⟩ := h (2 ^ 32 - 1)
  exact ⟨by decide, o, ho, by omega⟩

/-- The last byte, half-word and word of the record, and the last entries of the tables. -/
theorem witness_WindowsShowTheTables : 4095 < 4096 ∧ 4094 % 2 = 0 ∧ 8199 < 8200 := by decide

theorem witness_RecbufWritesStoreLittleEndian :
    Memory.wf quiet.env.resets quiet.recbuf ∧
    ((1 = 1 ∨ 1 = 2 ∨ 1 = 4) ∧ 8199 % 1 = 0 ∧ 8199 + 1 ≤ 8200) ∧
    ((2 = 1 ∨ 2 = 2 ∨ 2 = 4) ∧ 8198 % 2 = 0 ∧ 8198 + 2 ≤ 8200) ∧
    ((4 = 1 ∨ 4 = 2 ∨ 4 = 4) ∧ 8196 % 4 = 0 ∧ 8196 + 4 ≤ 8200) :=
  ⟨Memory.wf_nil _, by decide, by decide, by decide⟩

/-- Listed accesses at the edges of the windows, and their neighbours that are not listed. -/
theorem witness_AccessesAreListedOrRefused :
    legalAccess 0x02C 4 ∧ legalAccess 0x7FFC 4 ∧ legalAccess 0x9FFE 2 ∧ legalAccess 0xC007 1 ∧
    ¬ legalAccess 0x030 4 ∧ ¬ legalAccess 0x3FFC 4 ∧ ¬ legalAccess 0x9FFE 4 ∧ ¬ legalAccess 0xC006 4 ∧
    ¬ legalAccess 0xC008 1 := by
  unfold legalAccess
  omega

/-- The invariant holds of `quiet` with some bits still to be driven. -/
theorem witness_EveryStepKeepsTheInvariant :
    let s := { hosted [.write 0 4 0x03000000] with target := 5, output := { quiet.output with srcnt := 32 } }
    s.Inv ∧ ∃ t, step s = .next t := by
  intro s
  refine ⟨⟨by decide, Nat.zero_le _, Nat.le_refl 32, fun h => ?_, .inl rfl, fun h => ?_, trivial, Memory.wf_nil _⟩, _, rfl⟩
  · exact absurd h (by decide)
  · exact absurd h (by decide)

theorem witness_OnlyResetEndsValidity :
    let s := { hosted [.write 0 4 0x01000000] with magic := 0xCA11B8ED }
    s.statusWord.getLsbD 1 = true ∧ s.resetNext = false ∧ ∃ t, step s = .next t :=
  ⟨by decide +kernel, by decide, _, rfl⟩

/-- A load that changes the magic. -/
theorem witness_CalibrationHasOnlyItsWriters :
    let s := { hosted [.write 0 4 0x41002008] with recbuf := magicCells }
    s.resetNext = false ∧ step s = .next (after (step s)) ∧ (after (step s)).magic ≠ s.magic :=
  ⟨by decide, rfl, by decide +kernel⟩

theorem witness_HistogramHasOnlyItsWriters :
    let s := hosted [.write 0 4 0x21000005]
    s.resetNext = false ∧ step s = .next (after (step s)) ∧ (after (step s)).hist ≠ s.hist := by
  intro s
  refine ⟨by decide, rfl, fun h => ?_⟩
  have h5 : (after (step s)).histAt 5 = s.histAt 5 := congrArg (·.getD 5 0) h
  exact absurd h5 (by decide +kernel)

theorem witness_AccumulatorHasOnlyItsWriters :
    let s := { hosted [.write 0 4 0x03000000] with target := 1365 }
    s.resetNext = false ∧ step s = .next (after (step s)) ∧ (after (step s)).acc ≠ s.acc :=
  ⟨by decide, rfl, by decide +kernel⟩

end Sys2Proof.Tests
end

section
/-! The invariant holds at reset and every step keeps it: one rule per shared operation, then one lemma per kind
of step. -/

namespace Sys2Proof.Machine

/-! ## What the operations on the state keep -/

/-- A reset leaves a state of the invariant, whatever the environment holds (R196). -/
theorem inv_resetAt (n : Nat) (env : Env) : (State.resetAt n env).Inv where
  accLow := rfl
  queueFits := Nat.zero_le _
  srcntFits := Nat.zero_le _
  starvedUndriven _ _ := rfl
  magicKnown := .inl rfl
  okNoCause _ := rfl
  seqOk := trivial
  recbufWf := Memory.wf_nil n

theorem inv_complete {s : State} (r : Word) (h : s.Inv) : (s.complete r).Inv :=
  { h with okNoCause := fun _ => rfl }

theorem inv_raise {s : State} (c : Cause) (h : s.Inv) : (s.raise c).Inv :=
  { h with okNoCause := fun hok => absurd hok Bool.false_ne_true }

theorem inv_clearIll {s : State} (h : s.Inv) : s.clearIll.Inv := { h with }

/-- The host's list and the value the last read returned are no part of the invariant. -/
theorem inv_withEnv {s : State} {e : Env} (he : e.resets = s.env.resets) (h : s.Inv) :
    ({ s with env := e } : State).Inv :=
  { h with recbufWf := by rw [he]; exact h.recbufWf }

/-- Neither are the contents of the two tables. -/
theorem inv_withTables {s : State} (hist : Vector Word 4096) (corr : Vector Half 4096) (h : s.Inv) :
    ({ s with hist := hist, corr := corr } : State).Inv :=
  { h with }

/-- A new calibration comes with the sentinel (R18). -/
theorem inv_withCalibration {s : State} (corr : Vector Half 4096) (codeMin codeMax : Half) (h : s.Inv) :
    ({ s with corr := corr, codeMin := codeMin, codeMax := codeMax, magic := Config.magicValid } : State).Inv :=
  { h with magicKnown := .inr rfl }

/-- `TARGET` and `SEQ` may move to any position inside the loops. -/
theorem inv_withPosition {s : State} {target : Level} {x : Seq} (hx : x.Ok target) (h : s.Inv) :
    ({ s with target := target, seq := x } : State).Inv :=
  { h with seqOk := hx }

/-- The serializer keeps what the invariant says of the output path (R13, R14, R28). -/
theorem inv_serializerTurn {s : State} (h : s.Inv) : (serializerTurn s).Inv :=
  { h with
    queueFits := (q_run_length _ _).trans h.queueFits
    srcntFits := srcnt_run _ h.srcntFits
    starvedUndriven := starved_run _ h.starvedUndriven }

theorem inv_beginAccess {s : State} (rest : List HostEvent) (h : s.Inv) : (beginAccess rest s).Inv :=
  inv_serializerTurn (inv_withEnv rfl h)

/-- `ACC[19:0] = 0` says that `ACC` is a multiple of 2^20 (R12). -/
theorem accLow_iff (acc : Word) : acc.extractLsb' 0 20 = 0#20 ↔ acc.toNat % 2 ^ 20 = 0 := by
  rw [← BitVec.toNat_inj, BitVec.extractLsb'_toNat]
  simp

/-- Every increment is a multiple of 2^20, so that the low bits of the accumulator stay 0 (R12, R82). -/
theorem accLow_genWord {acc : Word} (t : Level) (h : acc.extractLsb' 0 20 = 0#20) :
    (genWord acc t).1.extractLsb' 0 20 = 0#20 := by
  rw [accLow_iff] at h ⊢
  rw [genWord_eq, toNat_modAfter_acc, toNat_increment]
  omega

theorem inv_feedAttempt {s : State} (h : s.Inv) : (feedAttempt s).2.Inv := by
  have hq := feedAttempt_queueFits h.queueFits
  cases hf : s.qfull with
  | true => rw [feedAttempt_of_full hf]; exact h
  | false =>
    rw [feedAttempt_of_room hf] at hq ⊢
    exact { h with
      accLow := accLow_genWord s.target h.accLow
      queueFits := hq
      starvedUndriven := fun _ hnil => absurd hnil (List.append_ne_nil_of_right_ne_nil _ (List.cons_ne_nil _ _)) }

theorem inv_sample {s : State} (h : s.Inv) : (sample s).2.Inv :=
  inv_withEnv rfl (inv_serializerTurn (inv_feedAttempt h))

theorem inv_record {s : State} (v : Half) (h : s.Inv) : (record v s).Inv := inv_withTables _ _ h

/-- A store inside the record keeps the canonical form (assumption 6). -/
theorem inv_recStore {s : State} {a : Nat} {bytes : List Byte} (ha : a + bytes.length ≤ 8200) (h : s.Inv) :
    (s.recStore a bytes).Inv :=
  { h with recbufWf := Memory.wf_store _ _ _ _ ha h.recbufWf }

/-! ## The sequencer -/

theorem inv_settleTick {s : State} (h : s.Inv) : (settleTick s).Inv := inv_feedAttempt (inv_serializerTurn h)

theorem inv_collectSample {s : State} (h : s.Inv) : (collectSample s).Inv :=
  inv_record _ (inv_serializerTurn (inv_sample (inv_serializerTurn h)))

theorem inv_finishCollect {s : State} (h : s.Inv) : (finishCollect s).Inv :=
  inv_complete 0 (inv_withPosition (x := .idle) trivial h)

theorem inv_enterVisit {s : State} {ns spl st pass : Nat} (level : Level) (hns : ns ≤ 255) (hspl : spl ≤ 65535)
    (hst : st < 2 ^ 32) (hp : pass < ns) (h : s.Inv) : (enterVisit ns spl st pass level s).Inv :=
  inv_withPosition ⟨hns, hspl, hst, hp, rfl, Nat.zero_le st⟩ h

/-- The next visit belongs to a pass of the run. -/
theorem nextVisit_pass_lt {ns pass pass' : Nat} {level level' : Level} (hp : pass < ns)
    (hn : nextVisit ns pass level = some (pass', level')) : pass' < ns := by
  unfold nextVisit at hn
  split at hn
  · split at hn
    · cases hn; assumption
    · cases hn
  · cases hn; exact hp

theorem inv_leaveVisit {s : State} {ns spl st pass : Nat} (level : Level) (hns : ns ≤ 255) (hspl : spl ≤ 65535)
    (hst : st < 2 ^ 32) (hp : pass < ns) (h : s.Inv) : (leaveVisit ns spl st pass level s).Inv := by
  rcases leaveVisit_cases ns spl st pass level s with ⟨pass', level', hn, he⟩ | ⟨-, he⟩ <;> rw [he]
  · exact inv_enterVisit level' hns hspl hst (nextVisit_pass_lt hp hn) h
  · exact inv_finishCollect h

/-- One sample of `SMP.AVG` adds at most 65535 to the running sum (R104). -/
theorem inv_avgSample {s : State} {n sum count : Nat} (hn : 0 < n) (hn' : n ≤ 65535) (hc : count < n)
    (hsum : sum ≤ count * 65535) (h : s.Inv) : (avgSample n sum count s).Inv := by
  have hv := (sample (serializerTurn s)).1.isLt
  exact inv_withPosition ⟨hn, hn', hc, by omega⟩ (inv_sample (inv_serializerTurn h))

/-- Every micro-step of a command in flight keeps the invariant (R25). -/
theorem inv_seqStep {s : State} (h : s.Inv) : (seqStep s).Inv := by
  have hok := h.seqOk
  rcases seqStep_cases s with ⟨-, he⟩ | ⟨ns, spl, st, pass, level, t, hs, ht, he⟩ |
    ⟨ns, spl, st, pass, level, t, hs, -, he⟩ | ⟨ns, spl, st, pass, level, k, hs, hk, he⟩ |
    ⟨ns, spl, st, pass, level, k, hs, -, he⟩ | ⟨n, sum, count, hs, hc, he⟩ | ⟨n, sum, count, -, -, he⟩ <;> rw [he]
  · exact h
  · rw [hs] at hok
    obtain ⟨hns, hspl, hst, hp, hl, -⟩ := hok
    exact inv_withPosition ⟨hns, hspl, hst, hp, hl, ht⟩ (inv_settleTick h)
  · rw [hs] at hok
    obtain ⟨hns, hspl, hst, hp, hl, -⟩ := hok
    exact inv_withPosition ⟨hns, hspl, hst, hp, hl, Nat.zero_le spl⟩ h
  · rw [hs] at hok
    obtain ⟨hns, hspl, hst, hp, hl, -⟩ := hok
    exact inv_withPosition ⟨hns, hspl, hst, hp, hl, hk⟩ (inv_collectSample h)
  · rw [hs] at hok
    obtain ⟨hns, hspl, hst, hp, -⟩ := hok
    exact inv_leaveVisit level hns hspl hst hp h
  · rw [hs] at hok
    obtain ⟨hn, hn', -, hsum⟩ := hok
    exact inv_avgSample hn hn' hc hsum h
  · exact inv_complete _ (inv_withPosition (x := .idle) trivial h)

theorem inv_seqRun {s : State} (k : Nat) (h : s.Inv) : (seqRun k s).Inv :=
  seqRun_keeps (P := State.Inv) (fun _ => inv_seqStep) k s h

theorem inv_startCollect {s : State} (h : s.Inv) : (startCollect s).Inv := by
  have hns := s.numSweeps.isLt
  have hspl := s.samplesPerLevel.isLt
  have h' : ({ s with hist := Vector.replicate 4096 0 } : State).Inv := inv_withTables _ _ h
  unfold startCollect
  split
  · exact inv_finishCollect h'
  · exact inv_enterVisit _ (by omega) (by omega) s.settleTicks.isLt (by omega) h'

/-! ## Commands and the host's accesses -/

theorem inv_lutBuilt {s : State} (h : s.Inv) : (lutBuilt s).Inv := by
  unfold lutBuilt
  exact inv_complete 0 (inv_withCalibration _ _ _ h)

theorem inv_recLoaded {s : State} (h : s.Inv) : (recLoaded s).Inv := by
  unfold recLoaded
  exact inv_complete 0 (inv_withCalibration _ _ _ h)

/-- `WG.INIT` empties the output path (R81). -/
theorem inv_initialised {s : State} (hs : s.seq = .idle) (h : s.Inv) :
    ({ s with acc := 0, target := 0, output := { s.output with q := [], srcnt := 0, dout := .undriven } } :
      State).Inv :=
  { h with
    accLow := rfl
    queueFits := Nat.zero_le _
    srcntFits := Nat.zero_le _
    starvedUndriven := fun _ _ => rfl
    seqOk := by rw [hs]; trivial }

/-- Every command of an idle engine keeps the invariant. -/
theorem inv_exec {i : Instr} {s t : State} (hs : s.seq = .idle) (h : s.Inv) (he : exec i s = .next t) : t.Inv := by
  rcases exec_cases he with ⟨-, rfl⟩ | ⟨level, -, rfl⟩ | ⟨-, -, rfl⟩ | ⟨-, -, rfl⟩ | ⟨-, rfl⟩ | ⟨-, rfl⟩ |
    ⟨n, hn, -, rfl⟩ | ⟨-, rfl⟩ | ⟨code, -, rfl⟩ | ⟨-, rfl⟩ | ⟨-, -, rfl⟩ | ⟨-, -, rfl⟩ | ⟨-, rfl⟩ | ⟨raw, -, -, rfl⟩ |
    ⟨raw, -, -, rfl⟩ | ⟨-, rfl⟩ | ⟨size, -, -, rfl⟩ | ⟨size, -, -, rfl⟩
  · exact inv_complete _ (inv_initialised hs h)
  · exact inv_complete _ (inv_withPosition (x := s.seq) (by rw [hs]; trivial) h)
  · exact inv_complete _ (inv_feedAttempt h)
  · exact inv_raise _ h
  · exact inv_complete _ (inv_sample h)
  · exact inv_raise _ h
  · have hpos : 0 < n.toNat := Nat.pos_of_ne_zero fun h0 => hn (BitVec.eq_of_toNat_eq h0)
    have hlt := n.isLt
    exact inv_seqRun _ (inv_withPosition ⟨hpos, by omega, Nat.zero_le _, Nat.zero_le _⟩ h)
  · exact inv_complete _ (inv_withTables _ _ h)
  · exact inv_complete _ (inv_record _ h)
  · exact inv_seqRun _ (inv_startCollect h)
  · exact inv_raise _ h
  · exact inv_lutBuilt h
  · exact inv_complete _ (inv_withTables _ _ h)
  · exact inv_complete _ h
  · exact inv_complete _ (inv_withEnv rfl h)
  · exact inv_complete _ (inv_recStore (by rw [length_recordBytes]) h)
  · exact inv_recLoaded h
  · exact inv_raise _ h

theorem inv_hostRead {s t : State} {off : BitVec 16} {n : Nat} (h : s.Inv) (hr : hostRead off n s = .next t) :
    t.Inv := by
  obtain ⟨loc, -, rfl⟩ := hostRead_cases hr
  exact inv_withEnv rfl h

theorem inv_hostWrite {s t : State} {off : BitVec 16} {n : Nat} {v : Word} (h : s.Inv)
    (hw : hostWrite off n v s = .next t) : t.Inv := by
  obtain ⟨loc, hl, rfl⟩ := hostWrite_cases hw
  rcases writeLoc_cases v s loc with he | he | ⟨x, he⟩ | ⟨x, he⟩ | ⟨x, he⟩ | ⟨a, k, rfl, he⟩ <;> rw [he]
  · exact h
  · exact inv_clearIll h
  · exact { h with }
  · exact { h with }
  · exact { h with }
  · have hin := locate_recbuf_inside hl
    have hlen := List.length_take_le k (le32 v)
    exact inv_recStore (by omega) h

/-! ## The statements -/

/-- Settles O55: State.reset is a state right after a reset. -/
theorem resetMeetsTheInvariant : Obligations.ResetMeetsTheInvariant := inv_resetAt 0 Env.reset

/-- Settles O56: by the kinds of step, the reset event first. -/
theorem everyStepKeepsTheInvariant : Obligations.EveryStepKeepsTheInvariant := by
  intro s t h hstep
  cases hr : s.resetNext with
  | true =>
    obtain ⟨rest, hh⟩ : ∃ rest, s.env.host = .reset :: rest := by
      unfold State.resetNext at hr
      split at hr
      · exact ⟨_, ‹_›⟩
      · cases hr
    rw [step_of_reset hh] at hstep
    cases hstep
    exact inv_resetAt _ _
  | false =>
    rcases step_cases hr hstep with ⟨-, rfl⟩ | ⟨-, rfl⟩ | ⟨-, rest, off, n, hread⟩ | ⟨-, rest, off, n, v, hwrite⟩ |
      ⟨-, rest, rfl⟩ | ⟨hs, rest, i, -, hexec⟩
    · exact inv_seqStep h
    · exact inv_serializerTurn h
    · exact inv_hostRead (inv_beginAccess rest h) hread
    · exact inv_hostWrite (inv_beginAccess rest h) hwrite
    · exact inv_raise _ (inv_beginAccess rest h)
    · exact inv_exec ((beginAccess_seq rest s).trans hs) (inv_beginAccess rest h) hexec

end Sys2Proof.Machine
end

section
/-! A command in flight is the run of its micro-steps: how many micro-steps a position of the sequencer still
has, and that the machine takes them one by one. -/

namespace Sys2Proof.Machine

/-- How many level visits of `HST.COLLECT` follow the one at a level of a pass. -/
def visitsAfter (ns pass : Nat) (level : Level) : Nat :=
  (ns - 1 - pass) * 4096 + if pass % 2 = 0 then 4095 - level.toNat else level.toNat

/-- How many micro-steps the command at a position of the sequencer still has. -/
def Seq.remaining : Seq → Nat
  | .idle => 0
  | .collect ns spl st pass level (.settle t) => (st - t) + 1 + (spl + 1) + visitsAfter ns pass level * (st + spl + 2)
  | .collect ns spl st pass level (.sample k) => (spl - k) + 1 + visitsAfter ns pass level * (st + spl + 2)
  | .avg n _ count => (n - count) + 1

@[simp] theorem remaining_settle (ns spl st pass : Nat) (level : Level) (t : Nat) :
    (Seq.collect ns spl st pass level (.settle t)).remaining =
      (st - t) + 1 + (spl + 1) + visitsAfter ns pass level * (st + spl + 2) := rfl

@[simp] theorem remaining_sample (ns spl st pass : Nat) (level : Level) (k : Nat) :
    (Seq.collect ns spl st pass level (.sample k)).remaining =
      (spl - k) + 1 + visitsAfter ns pass level * (st + spl + 2) := rfl

@[simp] theorem remaining_avg (n sum count : Nat) : (Seq.avg n sum count).remaining = (n - count) + 1 := rfl

/-- At the first visit of a pass its 4095 others are still to come. -/
theorem visitsAfter_first (ns pass : Nat) :
    visitsAfter ns pass (visitLevel pass 0) = (ns - 1 - pass) * 4096 + 4095 := by
  unfold visitsAfter
  rw [toNat_visitLevel pass (by omega)]
  by_cases hp : pass % 2 = 0 <;> simp [hp]

/-- After its last visit a pass has none left. -/
theorem visitsAfter_last (ns pass : Nat) : visitsAfter ns pass (visitLevel pass 4095) = (ns - 1 - pass) * 4096 := by
  unfold visitsAfter
  rw [toNat_visitLevel pass (by omega)]
  by_cases hp : pass % 2 = 0 <;> simp [hp]

/-- Within a pass each visit is followed by one fewer. -/
theorem visitsAfter_within (ns : Nat) {pass : Nat} {level : Level} (h : level ≠ visitLevel pass 4095) :
    visitsAfter ns pass level = visitsAfter ns pass (if pass % 2 = 0 then level + 1 else level - 1) + 1 := by
  have hlt := level.isLt
  have hone : (1 : Level).toNat = 1 := rfl
  have hne : level.toNat ≠ if pass % 2 = 0 then 4095 else 4095 - 4095 :=
    fun he => h (BitVec.eq_of_toNat_eq (he.trans (toNat_visitLevel pass (by omega)).symm))
  unfold visitsAfter
  by_cases hp : pass % 2 = 0
  · simp only [hp, if_true, BitVec.toNat_add] at hne ⊢
    omega
  · simp only [hp, if_false, BitVec.toNat_sub] at hne ⊢
    omega

/-- Leaving a visit takes one micro-step and loses no visit that is still to come. -/
theorem remaining_leaveVisit (ns spl st pass : Nat) (level : Level) (s : State) :
    visitsAfter ns pass level * (st + spl + 2) ≤ (leaveVisit ns spl st pass level s).seq.remaining := by
  have hvisit : ∀ pass' level', visitsAfter ns pass level = visitsAfter ns pass' level' + 1 →
      visitsAfter ns pass level * (st + spl + 2) ≤ (enterVisit ns spl st pass' level' s).seq.remaining := by
    intro pass' level' he
    simp only [enterVisit, remaining_settle, he, Nat.succ_mul]
    omega
  unfold leaveVisit nextVisit
  by_cases hl : level = visitLevel pass 4095
  · rw [if_pos hl]
    by_cases hp : pass + 1 < ns
    · rw [if_pos hp]
      refine hvisit _ _ ?_
      rw [hl, visitsAfter_last, visitsAfter_first]
      omega
    · rw [if_neg hp, hl, visitsAfter_last, show ns - 1 - pass = 0 by omega, Nat.zero_mul]
      exact Nat.zero_le _
  · rw [if_neg hl]
    exact hvisit _ _ (visitsAfter_within ns hl)

/-- A micro-step uses up at most one of the micro-steps that remain. -/
theorem remaining_seqStep (s : State) : s.seq.remaining ≤ (seqStep s).seq.remaining + 1 := by
  rcases seqStep_cases s with ⟨-, he⟩ | ⟨ns, spl, st, pass, level, t, hs, ht, he⟩ |
    ⟨ns, spl, st, pass, level, t, hs, ht, he⟩ | ⟨ns, spl, st, pass, level, k, hs, hk, he⟩ |
    ⟨ns, spl, st, pass, level, k, hs, hk, he⟩ | ⟨n, sum, count, hs, hc, he⟩ | ⟨n, sum, count, hs, hc, he⟩ <;> rw [he]
  · exact Nat.le_succ _
  · simp only [hs, remaining_settle]
    omega
  · simp only [hs, remaining_settle, remaining_sample]
    omega
  · simp only [hs, remaining_sample]
    omega
  · have hleave := remaining_leaveVisit ns spl st pass level s
    simp only [hs, remaining_sample]
    omega
  · simp only [hs, avgSample, remaining_avg]
    omega
  · simp only [hs, remaining_avg]
    omega

/-- No micro-step brings the reset event nearer: the host's list stays (R47). -/
theorem resetNext_seqStep (s : State) : (seqStep s).resetNext = s.resetNext := by
  unfold State.resetNext
  rw [(seqStep_env s).1]

/-- While micro-steps remain and no reset comes, the machine's run is the sequencer's. -/
theorem core_run_of_le_remaining (k : Nat) (s : State) (hr : s.resetNext = false) (hk : k ≤ s.seq.remaining) :
    core.run k s = .next (seqRun k s) := by
  induction k generalizing s with
  | zero => rfl
  | succ k ih =>
    have hs : s.seq ≠ .idle := fun hs => by rw [hs] at hk; exact Nat.not_succ_le_zero k hk
    have hrem := remaining_seqStep s
    rw [core_run_succ k (step_of_inFlight hs hr)]
    exact ih (seqStep s) ((resetNext_seqStep s).trans hr) (by omega)

theorem startCollect_of_noSweeps {s : State} (h : s.numSweeps.toNat = 0) :
    startCollect s = finishCollect { s with hist := Vector.replicate 4096 0 } := by
  unfold startCollect
  rw [if_pos h]

theorem startCollect_of_sweeps {s : State} (h : s.numSweeps.toNat ≠ 0) :
    startCollect s =
      enterVisit s.numSweeps.toNat s.samplesPerLevel.toNat s.settleTicks.toNat 0 (visitLevel 0 0)
        { s with hist := Vector.replicate 4096 0 } := by
  unfold startCollect
  rw [if_neg h]

/-- The start of a collection leaves the host's list. -/
theorem resetNext_startCollect (s : State) : (startCollect s).resetNext = s.resetNext := by
  by_cases h : s.numSweeps.toNat = 0
  · rw [startCollect_of_noSweeps h]; rfl
  · rw [startCollect_of_sweeps h]; rfl

/-- A collection has all its micro-steps before it when it starts (R114). -/
theorem collectSteps_le_remaining (s : State) : collectSteps s ≤ (startCollect s).seq.remaining := by
  unfold collectSteps
  by_cases h : s.numSweeps.toNat = 0
  · rw [h, Nat.zero_mul]
    exact Nat.zero_le _
  · obtain ⟨m, hm⟩ := Nat.exists_eq_add_one_of_ne_zero h
    rw [startCollect_of_sweeps h]
    simp only [enterVisit, remaining_settle, visitsAfter_first, hm, Nat.add_sub_cancel, Nat.sub_zero]
    exact Nat.le_of_eq (by ring)

/-- Settles O10: all the micro-steps of each of the two commands remain at its start. -/
theorem commandIsTheRunOfItsMicroSteps : Obligations.CommandIsTheRunOfItsMicroSteps := by
  intro s hr
  refine ⟨?_, fun n hn => ?_⟩
  · rw [exec_hstCollect]
    exact core_run_of_le_remaining _ _ ((resetNext_startCollect s).trans hr) (collectSteps_le_remaining s)
  · rw [exec_smpAvg_of_ne_zero hn]
    exact core_run_of_le_remaining _ { s with seq := .avg n.toNat 0 0 } hr (Nat.le_refl _)

end Sys2Proof.Machine
end

section
/-! Who writes the calibration, the histogram and the accumulator: the commands that do, the micro-steps that do,
and nothing else of a step. -/

namespace Sys2Proof.Machine

/-- The calibration of `t` is that of `s` (R16 to R18). -/
structure SameCalibration (s t : State) : Prop where
  corr : t.corr = s.corr
  codeMin : t.codeMin = s.codeMin
  codeMax : t.codeMax = s.codeMax
  magic : t.magic = s.magic

/-- The calibration, the histogram and the accumulator of `t` are those of `s`. -/
structure SameData (s t : State) : Prop where
  calibration : SameCalibration s t
  hist : t.hist = s.hist
  acc : t.acc = s.acc

theorem SameCalibration.refl (s : State) : SameCalibration s s := ⟨rfl, rfl, rfl, rfl⟩

theorem SameCalibration.trans {s t u : State} (h : SameCalibration s t) (h' : SameCalibration t u) :
    SameCalibration s u :=
  ⟨h'.corr.trans h.corr, h'.codeMin.trans h.codeMin, h'.codeMax.trans h.codeMax, h'.magic.trans h.magic⟩

theorem SameData.trans {s t u : State} (h : SameData s t) (h' : SameData t u) : SameData s u :=
  ⟨h.calibration.trans h'.calibration, h'.hist.trans h.hist, h'.acc.trans h.acc⟩

theorem SameCalibration.not_changed {s t : State} (h : SameCalibration s t) :
    ¬ (t.corr ≠ s.corr ∨ t.codeMin ≠ s.codeMin ∨ t.codeMax ≠ s.codeMax ∨ t.magic ≠ s.magic) := by
  simp only [h.corr, h.codeMin, h.codeMax, h.magic, ne_eq, not_true_eq_false, or_self, not_false_eq_true]

/-! ## Accesses and turns -/

theorem sameData_beginAccess (rest : List HostEvent) (s : State) : SameData s (beginAccess rest s) :=
  ⟨⟨rfl, rfl, rfl, rfl⟩, rfl, rfl⟩

theorem sameData_hostRead {s t : State} {off : BitVec 16} {n : Nat} (h : hostRead off n s = .next t) :
    SameData s t := by
  obtain ⟨loc, -, rfl⟩ := hostRead_cases h
  exact ⟨⟨rfl, rfl, rfl, rfl⟩, rfl, rfl⟩

theorem sameData_hostWrite {s t : State} {off : BitVec 16} {n : Nat} {v : Word} (h : hostWrite off n v s = .next t) :
    SameData s t := by
  obtain ⟨loc, -, rfl⟩ := hostWrite_cases h
  rcases writeLoc_cases v s loc with he | he | ⟨x, he⟩ | ⟨x, he⟩ | ⟨x, he⟩ | ⟨a, k, -, he⟩ <;> rw [he] <;>
    exact ⟨⟨rfl, rfl, rfl, rfl⟩, rfl, rfl⟩

/-- Short of a reset, only a micro-step of a command in flight or a command changes those data (R33). -/
theorem step_data_cases {s t : State} (hr : s.resetNext = false) (h : step s = .next t) :
    SameData s t ∨ (s.seq ≠ .idle ∧ t = seqStep s) ∨
    ∃ u i, SameData s u ∧ s.nextCommand = some i ∧ exec i u = .next t := by
  rcases step_cases hr h with hseq | ⟨-, rfl⟩ | ⟨-, rest, off, n, hread⟩ | ⟨-, rest, off, n, v, hwrite⟩ |
    ⟨-, rest, rfl⟩ | ⟨-, rest, i, hc, hexec⟩
  · exact .inr (.inl hseq)
  · exact .inl ⟨⟨rfl, rfl, rfl, rfl⟩, rfl, rfl⟩
  · exact .inl ((sameData_beginAccess rest s).trans (sameData_hostRead hread))
  · exact .inl ((sameData_beginAccess rest s).trans (sameData_hostWrite hwrite))
  · exact .inl ⟨⟨rfl, rfl, rfl, rfl⟩, rfl, rfl⟩
  · exact .inr (.inr ⟨_, i, sameData_beginAccess rest s, hc, hexec⟩)

/-! ## Micro-steps -/

theorem sameCalibration_seqStep (s : State) : SameCalibration s (seqStep s) := by
  obtain ⟨hcorr, hmin, hmax, hmagic, -⟩ := seqStep_calibration s
  exact ⟨hcorr, hmin, hmax, hmagic⟩

theorem sameCalibration_seqRun (k : Nat) (s : State) : SameCalibration s (seqRun k s) :=
  seqRun_keeps (P := SameCalibration s) (fun u hu => hu.trans (sameCalibration_seqStep u)) k s (.refl s)

theorem sameCalibration_startCollect (s : State) : SameCalibration s (startCollect s) := by
  unfold startCollect
  split <;> exact ⟨rfl, rfl, rfl, rfl⟩

/-- Only the micro-steps of a collection write the histogram; those of an average do not. -/
theorem seqStep_hist (s : State) :
    (seqStep s).hist = s.hist ∨ ∃ ns spl st pass level phase, s.seq = .collect ns spl st pass level phase := by
  rcases seqStep_cases s with ⟨-, he⟩ | ⟨_, _, _, _, _, _, hs, -⟩ | ⟨_, _, _, _, _, _, hs, -⟩ |
    ⟨_, _, _, _, _, _, hs, -⟩ | ⟨_, _, _, _, _, _, hs, -⟩ | ⟨_, _, _, -, -, he⟩ | ⟨_, _, _, -, -, he⟩
  · exact .inl (congrArg State.hist he)
  · exact .inr ⟨_, _, _, _, _, _, hs⟩
  · exact .inr ⟨_, _, _, _, _, _, hs⟩
  · exact .inr ⟨_, _, _, _, _, _, hs⟩
  · exact .inr ⟨_, _, _, _, _, _, hs⟩
  · exact .inl (by rw [he]; rfl)
  · exact .inl (by rw [he]; rfl)

theorem seqRun_avg_hist (n : Nat) (s : State) : (seqRun (n + 1) { s with seq := .avg n 0 0 }).hist = s.hist := by
  rw [seqRun_avg n n 0 0 { s with seq := .avg n 0 0 } rfl (Nat.zero_add n)]
  calc
    (averageLoop n { s with seq := .avg n 0 0 }).hist = (averageLoop n s).hist := by rw [averageLoop_withSeq]
    _ = s.hist := by rw [averageLoop_frame]

/-! ## Commands -/

/-- Which commands write the calibration, the histogram and the accumulator. -/
theorem exec_writers {i : Instr} {s t : State} (h : exec i s = .next t) :
    (SameCalibration s t ∨ i = .lutBuild ∨ i = .lutSmooth ∨ ∃ size, i = .recLoad size) ∧
    (t.hist = s.hist ∨ i = .hstClr ∨ (∃ code, i = .hstRec code) ∨ i = .hstCollect) ∧
    (t.acc = s.acc ∨ i = .wgInit ∨ i = .wgFeed ∨ i = .smpRaw ∨ (∃ n, i = .smpAvg n) ∨ i = .hstCollect) := by
  rcases exec_cases h with ⟨rfl, rfl⟩ | ⟨level, rfl, rfl⟩ | ⟨rfl, -, rfl⟩ | ⟨rfl, -, rfl⟩ | ⟨rfl, rfl⟩ | ⟨rfl, rfl⟩ |
    ⟨n, hn, rfl, rfl⟩ | ⟨rfl, rfl⟩ | ⟨code, rfl, rfl⟩ | ⟨rfl, rfl⟩ | ⟨rfl, -, rfl⟩ | ⟨rfl, -, rfl⟩ | ⟨rfl, rfl⟩ |
    ⟨raw, rfl, -, rfl⟩ | ⟨raw, rfl, -, rfl⟩ | ⟨rfl, rfl⟩ | ⟨size, rfl, -, rfl⟩ | ⟨size, rfl, -, rfl⟩
  · exact ⟨.inl ⟨rfl, rfl, rfl, rfl⟩, .inl rfl, .inr (.inl rfl)⟩
  · exact ⟨.inl ⟨rfl, rfl, rfl, rfl⟩, .inl rfl, .inl rfl⟩
  · exact ⟨.inl ⟨rfl, rfl, rfl, rfl⟩, .inl rfl, .inr (.inr (.inl rfl))⟩
  · exact ⟨.inl ⟨rfl, rfl, rfl, rfl⟩, .inl rfl, .inl rfl⟩
  · exact ⟨.inl ⟨rfl, rfl, rfl, rfl⟩, .inl rfl, .inr (.inr (.inr (.inl rfl)))⟩
  · exact ⟨.inl ⟨rfl, rfl, rfl, rfl⟩, .inl rfl, .inl rfl⟩
  · have hcal := sameCalibration_seqRun (n.toNat + 1) { s with seq := .avg n.toNat 0 0 }
    exact ⟨.inl ⟨hcal.corr, hcal.codeMin, hcal.codeMax, hcal.magic⟩, .inl (seqRun_avg_hist n.toNat s),
      .inr (.inr (.inr (.inr (.inl ⟨n, rfl⟩))))⟩
  · exact ⟨.inl ⟨rfl, rfl, rfl, rfl⟩, .inr (.inl rfl), .inl rfl⟩
  · exact ⟨.inl ⟨rfl, rfl, rfl, rfl⟩, .inr (.inr (.inl ⟨code, rfl⟩)), .inl rfl⟩
  · exact ⟨.inl ((sameCalibration_startCollect s).trans (sameCalibration_seqRun _ _)), .inr (.inr (.inr rfl)),
      .inr (.inr (.inr (.inr (.inr rfl))))⟩
  · exact ⟨.inl ⟨rfl, rfl, rfl, rfl⟩, .inl rfl, .inl rfl⟩
  · exact ⟨.inr (.inl rfl), .inl (lutBuilt_hist s), .inl (lutBuilt_acc s)⟩
  · exact ⟨.inr (.inr (.inl rfl)), .inl (complete_hist 0 _), .inl (complete_acc 0 _)⟩
  · exact ⟨.inl ⟨rfl, rfl, rfl, rfl⟩, .inl rfl, .inl rfl⟩
  · exact ⟨.inl ⟨rfl, rfl, rfl, rfl⟩, .inl rfl, .inl rfl⟩
  · exact ⟨.inl ⟨rfl, rfl, rfl, rfl⟩, .inl rfl, .inl rfl⟩
  · exact ⟨.inr (.inr (.inr ⟨size, rfl⟩)), .inl (recLoaded_hist s), .inl (recLoaded_acc s)⟩
  · exact ⟨.inl ⟨rfl, rfl, rfl, rfl⟩, .inl rfl, .inl rfl⟩

/-! ## The statements -/

/-- Settles O58: no access and no micro-step changes the calibration, and of the commands only the three. -/
theorem calibrationHasOnlyItsWriters : Obligations.CalibrationHasOnlyItsWriters := by
  intro s t hr hstep hne
  rcases step_data_cases hr hstep with hsame | ⟨-, rfl⟩ | ⟨u, i, hu, hc, hexec⟩
  · exact absurd hne hsame.calibration.not_changed
  · exact absurd hne (sameCalibration_seqStep s).not_changed
  · obtain ⟨hwriters, -, -⟩ := exec_writers hexec
    rcases hwriters with hsame | rfl | rfl | ⟨size, rfl⟩
    · exact absurd hne (hu.calibration.trans hsame).not_changed
    · exact .inl hc
    · exact .inr (.inl hc)
    · exact .inr (.inr ⟨size, hc⟩)

/-- Settles O59: of the micro-steps only a collection's change the histogram, and of the commands only the three. -/
theorem histogramHasOnlyItsWriters : Obligations.HistogramHasOnlyItsWriters := by
  intro s t hr hstep hne
  rcases step_data_cases hr hstep with hsame | ⟨-, rfl⟩ | ⟨u, i, hu, hc, hexec⟩
  · exact absurd hsame.hist hne
  · rcases seqStep_hist s with hsame | hcollect
    · exact absurd hsame hne
    · exact .inr (.inr (.inr hcollect))
  · obtain ⟨-, hwriters, -⟩ := exec_writers hexec
    rcases hwriters with hsame | rfl | ⟨code, rfl⟩ | rfl
    · exact absurd (hsame.trans hu.hist) hne
    · exact .inl hc
    · exact .inr (.inl ⟨code, hc⟩)
    · exact .inr (.inr (.inl hc))

/-- Settles O60: with no command in flight, the commands that initialise or feed the generator are all that change
`ACC`. -/
theorem accumulatorHasOnlyItsWriters : Obligations.AccumulatorHasOnlyItsWriters := by
  intro s t hr hstep hne
  rcases step_data_cases hr hstep with hsame | ⟨hs, -⟩ | ⟨u, i, hu, hc, hexec⟩
  · exact absurd hsame.acc hne
  · exact .inl hs
  · obtain ⟨-, -, hwriters⟩ := exec_writers hexec
    rcases hwriters with hsame | rfl | rfl | rfl | ⟨n, rfl⟩ | rfl
    · exact absurd (hsame.trans hu.acc) hne
    · exact .inr (.inl hc)
    · exact .inr (.inr (.inl hc))
    · exact .inr (.inr (.inr (.inl hc)))
    · exact .inr (.inr (.inr (.inr (.inl ⟨n, hc⟩))))
    · exact .inr (.inr (.inr (.inr (.inr hc))))

end Sys2Proof.Machine
end

section
/-! The register map: what a 32-bit access of each register does, and the fields of `STATUS`. -/

namespace Sys2Proof.Machine

/-! ## The register map (R34) -/

theorem locate_reg (r : Reg) : locate (BitVec.ofNat 16 r.offset) 4 = .ok (.reg r) := by
  cases r <;> rfl

theorem hostRead_reg (r : Reg) (s : State) :
    hostRead (BitVec.ofNat 16 r.offset) 4 s = .next { s with env := { s.env with rdata := readReg s r } } :=
  hostRead_of_ok (locate_reg r) s

theorem hostWrite_reg (r : Reg) (v : Word) (s : State) :
    hostWrite (BitVec.ofNat 16 r.offset) 4 v s = .next (writeReg v s r) :=
  hostWrite_of_ok (locate_reg r) v s

/-- Zero extension puts zero bits in front. -/
theorem setWidth_add_eq_append {n : Nat} (m : Nat) (x : BitVec n) : x.setWidth (m + n) = 0#m ++ x := by
  apply BitVec.eq_of_toNat_eq
  rw [toNat_append_add, BitVec.toNat_setWidth_of_le (Nat.le_add_left n m)]
  simp

/-- While `Qlen` fits its 32 bits, `QLEVEL` reads it (R13). -/
theorem readReg_qlevel {s : State} (h : s.output.q.length < 2 ^ 32) :
    readReg s .qlevel = BitVec.ofNat 32 s.output.q.length := if_pos h

/-- `QLEVEL` reads the same word as long as the queue is the same (R45). -/
theorem readReg_qlevel_congr {s t : State} (h : t.output.q = s.output.q) : readReg t .qlevel = readReg s .qlevel := by
  simp only [readReg, h]

/-- Settles O49: each offset is that of a register of the map. -/
theorem registerReadsReturnTheRegister : Obligations.RegisterReadsReturnTheRegister := by
  intro s
  refine ⟨hostRead_reg .cmd s, hostRead_reg .status s, hostRead_reg .result s, ?_, hostRead_reg .acc s, fun hq => ?_,
    fun t hq => ⟨readReg s .qlevel, hostRead_reg .qlevel s, ?_⟩, ?_, ?_, hostRead_reg .settleTicks s, ?_, ?_,
    hostRead_reg .magic s⟩
  · rw [← setWidth_add_eq_append 20 s.target]
    exact hostRead_reg .target s
  · rw [← readReg_qlevel hq]
    exact hostRead_reg .qlevel s
  · rw [← readReg_qlevel_congr hq]
    exact hostRead_reg .qlevel t
  · rw [← setWidth_add_eq_append 24 s.numSweeps]
    exact hostRead_reg .numSweeps s
  · rw [← setWidth_add_eq_append 16 s.samplesPerLevel]
    exact hostRead_reg .samplesPerLevel s
  · rw [← setWidth_add_eq_append 16 s.codeMin]
    exact hostRead_reg .codeMin s
  · rw [← setWidth_add_eq_append 16 s.codeMax]
    exact hostRead_reg .codeMax s

/-- Settles O51: the configuration registers keep the low bits of the value, the read-only ones nothing. -/
theorem registerWritesStoreOrAreIgnored : Obligations.RegisterWritesStoreOrAreIgnored := by
  intro s v
  refine ⟨?_, ?_, hostWrite_reg .settleTicks v s, ?_⟩
  · rw [← BitVec.setWidth_eq_extractLsb' (by omega)]
    exact hostWrite_reg .numSweeps v s
  · rw [← BitVec.setWidth_eq_extractLsb' (by omega)]
    exact hostWrite_reg .samplesPerLevel v s
  · simp only [List.forall_mem_cons, List.not_mem_nil, false_implies, implies_true, and_true]
    exact ⟨hostWrite_reg .result v s, hostWrite_reg .target v s, hostWrite_reg .acc v s, hostWrite_reg .qlevel v s,
      hostWrite_reg .codeMin v s, hostWrite_reg .codeMax v s, hostWrite_reg .magic v s⟩

/-! ## The fields of `STATUS` (R21) -/

theorem valid_eq (s : State) : s.valid = decide (s.magic = 0xCA11B8ED#32) := rfl

/-- The STATUS word lays a cause code and the five flags out as R21 says. -/
theorem status_layout (code : BitVec 4) (ill qempty qfull valid ok : Bool) :
    let w := (0#20) ++ code ++ (0#3) ++ BitVec.ofBool ill ++ BitVec.ofBool qempty ++ BitVec.ofBool qfull
      ++ BitVec.ofBool valid ++ BitVec.ofBool ok
    w.getLsbD 0 = ok ∧ w.getLsbD 1 = valid ∧ w.getLsbD 2 = qfull ∧ w.getLsbD 3 = qempty ∧ w.getLsbD 4 = ill ∧
      w.extractLsb' 5 3 = 0#3 ∧ w.extractLsb' 8 4 = code ∧ w.extractLsb' 12 20 = 0#20 := by
  intro w
  refine ⟨?_, ?_, ?_, ?_, ?_, ?_, ?_, ?_⟩
  · simp only [w, BitVec.getLsbD_append]
    simp
  · simp only [w, BitVec.getLsbD_append]
    simp
  · simp only [w, BitVec.getLsbD_append]
    simp
  · simp only [w, BitVec.getLsbD_append]
    simp
  · simp only [w, BitVec.getLsbD_append]
    simp
  · ext i hi
    simp only [w, BitVec.getElem_extractLsb', BitVec.getLsbD_append]
    simp
    omega
  · ext i hi
    simp only [w, BitVec.getElem_extractLsb', BitVec.getLsbD_append]
    simp [hi, BitVec.getLsbD_eq_getElem]
  · ext i hi
    simp only [w, BitVec.getElem_extractLsb', BitVec.getLsbD_append]
    simp
    omega

/-- Clearing `ILL`, when bit 4 says so, is all that a write to `STATUS` does (R21). -/
theorem writeReg_status (v : Word) (s : State) :
    writeReg v s .status =
      { s with status := { s.status with ill := if v.getLsbD 4 then false else s.status.ill } } := by
  show (if v.getLsbD 4 then s.clearIll else s) = _
  split <;> rfl

/-- Settles O50: by the layout of the word and the one write. -/
theorem statusHasTheFieldsOfR21 : Obligations.StatusHasTheFieldsOfR21 := by
  refine ⟨fun s => ?_, fun s v => ?_⟩
  · obtain ⟨hok, hvalid, hfull, hempty, hill, hlow, hcause, hhigh⟩ :=
      status_layout s.status.cause.code s.status.ill s.qempty s.qfull s.valid s.status.ok
    refine ⟨hok, hvalid, hfull, hempty, hill, hlow, hcause.trans ?_, hhigh⟩
    cases s.status.cause <;> rfl
  · rw [← writeReg_status]
    exact hostWrite_reg .status v s

end Sys2Proof.Machine
end

section
/-! The bit stream of the output path (R50): every operation of the machine but `WG.INIT` and the reset continues it,
and the serializer, left to itself, drives all of it. -/

namespace Sys2Proof.Machine

/-- `p` continues `o`: what has been driven and what is to be driven in `o` come first in `p` (R50). -/
structure Continues (o p : Output) : Prop where
  stream : o.stream <+: p.stream
  out : o.out <+: p.out

theorem Continues.refl (o : Output) : Continues o o := ⟨List.prefix_refl _, List.prefix_refl _⟩

theorem Continues.of_eq {o p : Output} (h : p = o) : Continues o p := h ▸ .refl o

theorem Continues.trans {o p r : Output} (h : Continues o p) (h' : Continues p r) : Continues o r :=
  ⟨h.stream.trans h'.stream, h.out.trans h'.out⟩

/-! ## The shared operations -/

theorem continues_run (k : Nat) (o : Output) : Continues o (Output.run k o) :=
  ⟨(stream_run k o).symm ▸ List.prefix_refl _, out_prefix_run k o⟩

theorem continues_serializerTurn (s : State) : Continues s.output (serializerTurn s).output := continues_run _ _

theorem continues_beginAccess (rest : List HostEvent) (s : State) : Continues s.output (beginAccess rest s).output :=
  continues_run _ _

/-- A feed attempt drives no bit. -/
@[simp] theorem out_feedAttempt (s : State) : (feedAttempt s).2.output.out = s.output.out := by
  cases hf : s.qfull with
  | true => rw [feedAttempt_of_full hf]
  | false => rw [feedAttempt_of_room hf]

theorem continues_feedAttempt (s : State) : Continues s.output (feedAttempt s).2.output where
  stream := stream_feedAttempt s ▸ List.prefix_append _ _
  out := out_feedAttempt s ▸ List.prefix_refl _

theorem continues_sample (s : State) : Continues s.output (sample s).2.output :=
  (continues_feedAttempt s).trans (continues_serializerTurn _)

/-! ## The sequencer -/

theorem continues_settleTick (s : State) : Continues s.output (settleTick s).output :=
  (continues_serializerTurn s).trans (continues_feedAttempt _)

theorem continues_sample_afterTurn (s : State) : Continues s.output (sample (serializerTurn s)).2.output :=
  (continues_serializerTurn s).trans (continues_sample _)

theorem continues_collectSample (s : State) : Continues s.output (collectSample s).output :=
  (continues_sample_afterTurn s).trans (continues_serializerTurn _)

@[simp] theorem leaveVisit_output (ns spl st pass : Nat) (level : Level) (s : State) :
    (leaveVisit ns spl st pass level s).output = s.output := by
  rcases leaveVisit_cases ns spl st pass level s with ⟨_, _, -, he⟩ | ⟨-, he⟩ <;> rw [he] <;> rfl

@[simp] theorem startCollect_output (s : State) : (startCollect s).output = s.output := by
  by_cases h : s.numSweeps.toNat = 0
  · rw [startCollect_of_noSweeps h]; rfl
  · rw [startCollect_of_sweeps h]; rfl

theorem continues_seqStep (s : State) : Continues s.output (seqStep s).output := by
  rcases seqStep_cases s with ⟨-, he⟩ | ⟨_, _, _, _, _, _, -, -, he⟩ | ⟨_, _, _, _, _, _, -, -, he⟩ |
    ⟨_, _, _, _, _, _, -, -, he⟩ | ⟨_, _, _, _, _, _, -, -, he⟩ | ⟨_, _, _, -, -, he⟩ | ⟨_, _, _, -, -, he⟩ <;> rw [he]
  · exact .refl _
  · exact continues_settleTick s
  · exact .refl _
  · exact continues_collectSample s
  · exact .of_eq (leaveVisit_output ..)
  · exact continues_sample_afterTurn s
  · exact .refl _

theorem continues_seqRun (k : Nat) (s : State) : Continues s.output (seqRun k s).output :=
  seqRun_keeps (P := fun u => Continues s.output u.output) (fun u hu => hu.trans (continues_seqStep u)) k s (.refl _)

/-! ## Accesses and commands -/

theorem hostRead_output {s t : State} {off : BitVec 16} {n : Nat} (h : hostRead off n s = .next t) :
    t.output = s.output := by
  obtain ⟨loc, -, rfl⟩ := hostRead_cases h
  rfl

theorem hostWrite_output {s t : State} {off : BitVec 16} {n : Nat} {v : Word} (h : hostWrite off n v s = .next t) :
    t.output = s.output := by
  obtain ⟨loc, -, rfl⟩ := hostWrite_cases h
  rcases writeLoc_cases v s loc with he | he | ⟨x, he⟩ | ⟨x, he⟩ | ⟨x, he⟩ | ⟨a, k, -, he⟩ <;> rw [he] <;> rfl

/-- Only `WG.INIT` discards bits that are to be driven (R81). -/
theorem continues_exec {i : Instr} {s t : State} (hi : i ≠ .wgInit) (h : exec i s = .next t) :
    Continues s.output t.output := by
  rcases exec_cases h with ⟨hinit, -⟩ | ⟨level, -, rfl⟩ | ⟨-, -, rfl⟩ | ⟨-, -, rfl⟩ | ⟨-, rfl⟩ | ⟨-, rfl⟩ |
    ⟨n, -, -, rfl⟩ | ⟨-, rfl⟩ | ⟨code, -, rfl⟩ | ⟨-, rfl⟩ | ⟨-, -, rfl⟩ | ⟨-, -, rfl⟩ | ⟨-, rfl⟩ | ⟨raw, -, -, rfl⟩ |
    ⟨raw, -, -, rfl⟩ | ⟨-, rfl⟩ | ⟨size, -, -, rfl⟩ | ⟨size, -, -, rfl⟩
  · exact absurd hinit hi
  · exact .refl _
  · exact continues_feedAttempt s
  · exact .refl _
  · exact continues_sample s
  · exact .refl _
  · exact continues_seqRun _ { s with seq := .avg n.toNat 0 0 }
  · exact .refl _
  · exact .refl _
  · exact (Continues.of_eq (startCollect_output s)).trans (continues_seqRun _ _)
  · exact .refl _
  · exact .of_eq (lutBuilt_output s)
  · exact .of_eq (complete_output 0 _)
  · exact .refl _
  · exact .refl _
  · exact .refl _
  · exact .of_eq (recLoaded_output s)
  · exact .refl _

/-- Settles O16: by the kinds of step, each of which continues the stream. -/
theorem onlyInitAndResetDiscardBits : Obligations.OnlyInitAndResetDiscardBits := by
  intro s t hr hcmd hstep
  suffices h : Continues s.output t.output from ⟨h.stream, h.out⟩
  rcases step_cases hr hstep with ⟨-, rfl⟩ | ⟨-, rfl⟩ | ⟨-, rest, off, n, hread⟩ | ⟨-, rest, off, n, v, hwrite⟩ |
    ⟨-, rest, rfl⟩ | ⟨-, rest, i, hi, hexec⟩
  · exact continues_seqStep s
  · exact continues_serializerTurn s
  · exact (continues_beginAccess rest s).trans (.of_eq (hostRead_output hread))
  · exact (continues_beginAccess rest s).trans (.of_eq (hostWrite_output hwrite))
  · exact continues_beginAccess rest s
  · have hne : i ≠ .wgInit := fun he => hcmd (he ▸ hi)
    exact (continues_beginAccess rest s).trans (continues_exec hne hexec)

/-! ## The drain (R89) -/

/-- With no word held, 33 steps drive the first word queued and take it out. -/
theorem run_word {o : Output} {w : Word} {rest : List Word} (hc : o.srcnt = 0) (hq : o.q = w :: rest) :
    (Output.run 33 o).srcnt = 0 ∧ (Output.run 33 o).q = rest := by
  rw [Output.run, output_step_load hc hq]
  exact run_held 32 rfl

/-- With no word held, 33 steps for each word queued empty the queue. -/
theorem run_words (q : List Word) {o : Output} (hc : o.srcnt = 0) (hq : o.q = q) :
    (Output.run (33 * q.length) o).srcnt = 0 ∧ (Output.run (33 * q.length) o).q = [] := by
  induction q generalizing o with
  | nil => exact ⟨hc, hq⟩
  | cons w rest ih =>
    obtain ⟨hc', hq'⟩ := run_word hc hq
    rw [List.length_cons, Nat.mul_succ, Nat.add_comm, run_add]
    exact ih hc' hq'

/-- With the bits held and the words queued behind them driven, nothing is held or queued. -/
theorem run_drained (o : Output) :
    (Output.run (o.srcnt + 33 * o.q.length) o).srcnt = 0 ∧ (Output.run (o.srcnt + 33 * o.q.length) o).q = [] := by
  obtain ⟨hc, hq⟩ := run_held o.srcnt (o := o) rfl
  rw [run_add]
  exact run_words o.q hc hq

/-- With nothing held or queued the stream is what has been driven. -/
theorem stream_of_drained {o : Output} (hc : o.srcnt = 0) (hq : o.q = []) : o.stream = o.out := by
  simp [Output.stream, Output.pending, Output.held, hc, hq]

/-- Settles O15: no step changes the stream, and the drained output has driven all of it. -/
theorem serializerDrivesTheBitStreamInOrder : Obligations.SerializerDrivesTheBitStreamInOrder := by
  intro o
  obtain ⟨hc, hq⟩ := run_drained o
  refine ⟨fun k => ⟨stream_run k o, out_prefix_run k o⟩, ?_, hq, hc⟩
  rw [← stream_of_drained hc hq, stream_run]

end Sys2Proof.Machine
end

section
/-! The host's accesses: when a step performs one, which are performed and which refused, and what the windows and the
record buffer show. -/

namespace Sys2Proof.Machine

/-! ## When a step performs an access (R46, R47, R49) -/

theorem isCommand_eq_false {off : BitVec 16} {n : Nat} (h : ¬ (off = 0 ∧ n = 4)) : isCommand off n = false := by
  simpa [isCommand] using h

/-- Settles O7: with the engine idle an access is what the step does. -/
theorem stepPerformsTheHostAccess : Obligations.StepPerformsTheHostAccess :=
  ⟨fun s => ⟨s.env.turnLength, rfl⟩, fun _ _ _ _ _ hs =>
    ⟨step_of_read hs, fun hh hc => step_of_write hs hh (isCommand_eq_false hc)⟩⟩

/-- Settles O8: the step is a micro-step, which leaves the host's side of the environment. -/
theorem hostIsHeldOffWhileACommandRuns : Obligations.HostIsHeldOffWhileACommandRuns := by
  intro s hs hr
  obtain ⟨hhost, hrdata, -⟩ := seqStep_env s
  exact ⟨seqStep s, step_of_inFlight hs hr, rfl, hhost, hrdata⟩

/-! ## The windows (R41) -/

/-- Settles O52: each access is located at its entry or byte, where a write finds nothing to change. -/
theorem windowsShowTheTables : Obligations.WindowsShowTheTables := by
  intro s i v hi
  refine ⟨hostRead_of_ok (locate_hist hi) s, ?_, fun h2 => hostRead_of_ok (locate_corrPair hi h2) s,
    hostWrite_of_ok (locate_hist hi) v s, hostWrite_of_ok (locate_corr hi) v s,
    fun h2 => hostWrite_of_ok (locate_corrPair hi h2) v s, fun a ha => ?_⟩
  · rw [← setWidth_add_eq_append 16 (s.corr.getD i 0)]
    exact hostRead_of_ok (locate_corr hi) s
  · rw [← setWidth_add_eq_append 24 (s.recAt a)]
    exact hostRead_of_ok (locate_recbuf (.inl rfl) (Nat.mod_one a) ha) s

/-! ## Writes to the record buffer (R42, R43) -/

/-- The bytes of a word, least significant first. -/
theorem getD_le32 (v : Word) {k : Nat} (hk : k < 4) : (le32 v).getD k 0 = v.extractLsb' (8 * k) 8 := by
  obtain rfl | rfl | rfl | rfl : k = 0 ∨ k = 1 ∨ k = 2 ∨ k = 3 := by omega
  all_goals rfl

/-- What a byte of `RECBUF` is after the low `n` bytes of a word have been stored at `a`. -/
theorem recAt_recStore_le32 {s : State} (h : Memory.wf s.env.resets s.recbuf) (a x : Nat) {n : Nat} (hn : n ≤ 4)
    (v : Word) :
    (s.recStore a ((le32 v).take n)).recAt x =
      if a ≤ x ∧ x < a + n then v.extractLsb' (8 * (x - a)) 8 else s.recAt x := by
  have hlen : ((le32 v).take n).length = n := List.length_take_of_le hn
  rw [recAt_recStore s a x _ h.1, hlen]
  refine if_ctx_congr .rfl (fun hx => ?_) (fun _ => rfl)
  have hk : x - a < n := by omega
  rw [← getD_le32 v (by omega), List.getD_eq_getElem?_getD, List.getElem?_take_of_lt hk,
    ← List.getD_eq_getElem?_getD]

/-- The mask of the low `n` bytes. -/
theorem toNat_and_lowBytes (v : Word) {n : Nat} (hn : n ≤ 4) :
    (v &&& BitVec.ofNat 32 (2 ^ (8 * n) - 1)).toNat = v.toNat % 2 ^ (8 * n) := by
  have hpow : 2 ^ (8 * n) ≤ 2 ^ 32 := Nat.pow_le_pow_right (by omega) (by omega)
  have hpos : 0 < 2 ^ (8 * n) := Nat.two_pow_pos _
  rw [BitVec.toNat_and, BitVec.toNat_ofNat, Nat.mod_eq_of_lt (by omega), Nat.and_two_pow_sub_one_eq_mod]

/-- A read of bytes that are a word's low ones returns them, zero-extended. -/
theorem readRec_of_bytes {s : State} {a n : Nat} {v : Word} (hn : n = 1 ∨ n = 2 ∨ n = 4)
    (h : ∀ k, k < n → s.recAt (a + k) = v.extractLsb' (8 * k) 8) :
    readRec s a n = v &&& BitVec.ofNat 32 (2 ^ (8 * n) - 1) := by
  have hbyte : ∀ k, k < n → (s.recAt (a + k)).toNat = v.toNat / 2 ^ (8 * k) % 256 :=
    fun k hk => (congrArg BitVec.toNat (h k hk)).trans (toNat_byte _ v)
  have hv := v.isLt
  apply BitVec.eq_of_toNat_eq
  rw [toNat_and_lowBytes v (by omega)]
  rcases hn with rfl | rfl | rfl
  · have h0 : (s.recAt a).toNat = v.toNat / 1 % 256 := hbyte 0 (by omega)
    rw [readRec, BitVec.toNat_setWidth_of_le (by omega)]
    omega
  · have h0 : (s.recAt a).toNat = v.toNat / 1 % 256 := hbyte 0 (by omega)
    have h1 : (s.recAt (a + 1)).toNat = v.toNat / 256 % 256 := hbyte 1 (by omega)
    rw [readRec, BitVec.toNat_setWidth_of_le (by omega), toNat_recHalf]
    omega
  · have h0 : (s.recAt a).toNat = v.toNat / 1 % 256 := hbyte 0 (by omega)
    have h1 : (s.recAt (a + 1)).toNat = v.toNat / 256 % 256 := hbyte 1 (by omega)
    have h2 : (s.recAt (a + 2)).toNat = v.toNat / 65536 % 256 := hbyte 2 (by omega)
    have h3 : (s.recAt (a + 3)).toNat = v.toNat / 16777216 % 256 := hbyte 3 (by omega)
    show (s.recWord a).toNat = _
    rw [toNat_recWord]
    omega

/-- Settles O53: by what each byte is after the store. -/
theorem recbufWritesStoreLittleEndian : Obligations.RecbufWritesStoreLittleEndian := by
  intro s a n v hwf hn ha hin
  have hloc := locate_recbuf hn ha hin
  have hbyte := fun x => recAt_recStore_le32 hwf a x (n := n) (by omega) v
  have hstored : ∀ k, k < n → (s.recStore a ((le32 v).take n)).recAt (a + k) = v.extractLsb' (8 * k) 8 := by
    intro k hk
    rw [hbyte, if_pos (by omega), Nat.add_sub_cancel_left]
  refine ⟨_, hostWrite_of_ok hloc v s, rfl, hstored, fun x hx => ?_, ?_⟩
  · exact (hbyte x).trans (if_neg (by omega))
  · rw [← readRec_of_bytes hn hstored]
    exact hostRead_of_ok hloc _

/-! ## Which accesses are performed (R43, R44, U5) -/

/-- The answer `x` to an access lists it when `legal` says so, and else refuses it by name. -/
def ListedOrRefused (legal : Prop) (off n : Nat) (x : Except Refusal Loc) : Prop :=
  (legal ∧ ∃ loc, x = .ok loc) ∨
  (¬ legal ∧ ∃ r, (r = .reservedOffset off ∨ r = .illSizedAccess off n) ∧ x = .error r)

theorem ListedOrRefused.congr {p p' : Prop} {off n : Nat} {x : Except Refusal Loc} (h : p ↔ p')
    (hx : ListedOrRefused p off n x) : ListedOrRefused p' off n x := propext h ▸ hx

theorem listedOrRefused_reserved {legal : Prop} (off n : Nat) (h : ¬ legal) :
    ListedOrRefused legal off n (.error (.reservedOffset off)) := .inr ⟨h, _, .inl rfl, rfl⟩

theorem listedOrRefused_ite {p : Prop} [Decidable p] (off n : Nat) (loc : Loc) :
    ListedOrRefused p off n (if p then .ok loc else .error (.illSizedAccess off n)) := by
  by_cases h : p
  · exact .inl ⟨h, loc, if_pos h⟩
  · exact .inr ⟨h, _, .inr rfl, if_neg h⟩

theorem listedOrRefused_locateReg (off n : Nat) :
    ListedOrRefused (n = 4 ∧ off < 0x30 ∧ off % 4 = 0) off n (locateReg off n) := by
  refine ListedOrRefused.congr (find_register off n) ?_
  unfold locateReg
  cases registers.find? (fun r => r.offset == off && n == 4) with
  | some r => exact .inl ⟨⟨r, rfl⟩, _, rfl⟩
  | none => exact .inr ⟨fun ⟨_, h⟩ => (nomatch h), _, .inr rfl, rfl⟩

theorem listedOrRefused_locateCorr (off n : Nat) :
    ListedOrRefused (n = 2 ∧ off % 2 = 0 ∨ n = 4 ∧ off % 4 = 0) off n (locateCorr off n) := by
  unfold locateCorr
  by_cases h : n = 2 ∧ off % 2 = 0
  · exact .inl ⟨.inl h, _, if_pos h⟩
  · rw [if_neg h]
    exact .congr (by rw [or_iff_right h]) (listedOrRefused_ite off n _)

/-- The address map lists exactly the accesses of R43 and refuses every other by name. -/
theorem listedOrRefused_locate (off : BitVec 16) (n : Nat) :
    ListedOrRefused (legalAccess off.toNat n) off.toNat n (locate off n) := by
  unfold locate legalAccess
  generalize off.toNat = o
  simp only
  split_ifs
  · exact .congr (by omega) (listedOrRefused_locateReg o n)
  · exact listedOrRefused_reserved o n (by omega)
  · exact .congr (by omega) (listedOrRefused_ite o n _)
  · exact .congr (by omega) (listedOrRefused_locateCorr o n)
  · exact .congr (by omega) (listedOrRefused_ite o n _)
  · exact listedOrRefused_reserved o n (by omega)

/-- Settles O54: an access is performed or refused as it is located. -/
theorem accessesAreListedOrRefused : Obligations.AccessesAreListedOrRefused := by
  intro s off n v
  have hframe : ∀ t, hostRead off n s = .next t → t = { s with env := { s.env with rdata := t.env.rdata } } := by
    intro t ht
    obtain ⟨loc, -, rfl⟩ := hostRead_cases ht
    rfl
  rcases listedOrRefused_locate off n with ⟨hlegal, loc, hloc⟩ | ⟨hillegal, r, hr, hloc⟩
  · exact ⟨hframe, iff_of_true ⟨_, hostRead_of_ok hloc s⟩ hlegal, iff_of_true ⟨_, hostWrite_of_ok hloc v s⟩ hlegal,
      fun hn => absurd hlegal hn⟩
  · have hread := hostRead_of_error hloc s
    have hwrite := hostWrite_of_error hloc v s
    refine ⟨hframe, iff_of_false ?_ hillegal, iff_of_false ?_ hillegal, fun _ => ⟨r, hr, hread, hwrite⟩⟩
    · rintro ⟨t, ht⟩
      cases hread.symm.trans ht
    · rintro ⟨t, ht⟩
      cases hwrite.symm.trans ht

end Sys2Proof.Machine
end

section
/-! The command encoding: a word decodes to a command exactly when it is that well-formed command's encoding (R60 to
R63), the rows of the table select exactly those words, and the words no row selects are those of R64. -/

namespace Sys2Proof

/-! ## What a format accepts (R61) -/

theorem formatZ_zero (i : Instr) : formatZ 0 i = .ok i := rfl

theorem formatL12_append (level : Level) (f : Level → Instr) : formatL12 (0#4 ++ level) f = .ok (f level) := by
  rw [formatL12, low12_append]
  exact if_pos (high4_append level)

theorem formatN16_of_ne {arg : Half} (h : arg ≠ 0) (f : Half → Instr) : formatN16 arg f = .ok (f arg) := if_neg h

/-! ## Decoding and encoding are inverse -/

/-- Decoding an encoding: the opcode map leads to the command's own format, which accepts its operand. -/
theorem decode_encode {i : Instr} (h : i.wellFormed = true) : decode (encode i) = .ok i := by
  cases i with
  | wgSett level => exact (decode_packWord _ _).trans (formatL12_append level .wgSett)
  | lutCorrect raw => exact (decode_packWord _ _).trans (formatL12_append raw .lutCorrect)
  | smpAvg n => exact (decode_packWord _ _).trans (formatN16_of_ne (bne_iff_ne.mp h) .smpAvg)
  | hstRec code => exact decode_packWord 0x21#8 code
  | recLoad size => exact decode_packWord 0x41#8 size
  | wgInit | wgFeed | smpRaw | hstClr | hstCollect | lutBuild | lutSmooth | recStore =>
    exact (decode_packWord _ _).trans (formatZ_zero _)

/-- `i` is a well-formed command whose word has the operation code `op` and the operand field `arg`. -/
def Instr.HasFields (i : Instr) (op : Byte) (arg : Half) : Prop := i.wellFormed = true ∧ encode i = packWord op arg

theorem hasFields_of_formatZ {op : Byte} {arg : Half} {i j : Instr} (hi : i.HasFields op 0)
    (h : formatZ arg i = .ok j) : j.HasFields op arg := by
  obtain ⟨rfl, rfl⟩ := formatZ_ok h
  exact hi

theorem hasFields_of_formatL12 {op : Byte} {arg : Half} {f : Level → Instr} {j : Instr}
    (hf : ∀ level, (f level).HasFields op (0#4 ++ level)) (h : formatL12 arg f = .ok j) : j.HasFields op arg := by
  obtain ⟨hhigh, rfl⟩ := formatL12_ok h
  simpa only [append_low12 arg hhigh] using hf (arg.extractLsb' 0 12)

theorem hasFields_of_formatU16 {op : Byte} {arg : Half} {f : Half → Instr} {j : Instr}
    (hf : (f arg).HasFields op arg) (h : formatU16 arg f = .ok j) : j.HasFields op arg := by
  cases formatU16_ok h
  exact hf

theorem hasFields_of_formatN16 {op : Byte} {arg : Half} {f : Half → Instr} {j : Instr}
    (hf : arg ≠ 0 → (f arg).HasFields op arg) (h : formatN16 arg f = .ok j) : j.HasFields op arg := by
  obtain ⟨hne, rfl⟩ := formatN16_ok h
  exact hf hne

/-- The opcode map drops no bit: one line a row of R63. -/
theorem hasFields_of_decodeOp {op : Byte} {arg : Half} {i : Instr} (h : decodeOp op arg = .ok i) :
    i.HasFields op arg := by
  unfold decodeOp at h
  split at h
  · exact hasFields_of_formatZ ⟨rfl, rfl⟩ h
  · exact hasFields_of_formatL12 (fun _ => ⟨rfl, rfl⟩) h
  · exact hasFields_of_formatZ ⟨rfl, rfl⟩ h
  · exact hasFields_of_formatZ ⟨rfl, rfl⟩ h
  · exact hasFields_of_formatN16 (f := .smpAvg) (fun hne => ⟨bne_iff_ne.mpr hne, rfl⟩) h
  · exact hasFields_of_formatZ ⟨rfl, rfl⟩ h
  · exact hasFields_of_formatU16 ⟨rfl, rfl⟩ h
  · exact hasFields_of_formatZ ⟨rfl, rfl⟩ h
  · exact hasFields_of_formatZ ⟨rfl, rfl⟩ h
  · exact hasFields_of_formatZ ⟨rfl, rfl⟩ h
  · exact hasFields_of_formatL12 (fun _ => ⟨rfl, rfl⟩) h
  · exact hasFields_of_formatZ ⟨rfl, rfl⟩ h
  · exact hasFields_of_formatU16 ⟨rfl, rfl⟩ h
  · cases h

theorem encode_of_decode {w : Word} {i : Instr} (h : decode w = .ok i) : i.wellFormed = true ∧ encode i = w := by
  obtain ⟨hrsv, hop⟩ := decode_ok h
  obtain ⟨hwf, henc⟩ := hasFields_of_decodeOp hop
  exact ⟨hwf, henc.trans (packWord_fields w hrsv)⟩

theorem decode_eq_ok_iff {w : Word} {i : Instr} : decode w = .ok i ↔ i.wellFormed = true ∧ encode i = w :=
  ⟨encode_of_decode, fun ⟨hwf, henc⟩ => henc ▸ decode_encode hwf⟩

theorem decodeBytes_le32 {w : Word} {i : Instr} (h : decode w = .ok i) (rest : List Byte) :
    decodeBytes (le32 w ++ rest) = .ok (i, rest) := by
  simp only [le32, List.cons_append, List.nil_append, decodeBytes, ofLe32_bytes, h]

/-- Settles O2: each command's own format accepts its operand. -/
theorem decodeOfEncodeIsTheCommand : Obligations.DecodeOfEncodeIsTheCommand := fun _ rest hwf =>
  ⟨decode_encode hwf, decodeBytes_le32 (decode_encode hwf) rest⟩

/-- Settles O3: no row of the opcode map drops a bit. -/
theorem encodeOfDecodeIsTheWord : Obligations.EncodeOfDecodeIsTheWord := fun _ _ => encode_of_decode

/-- Settles O1: the eight words are encodings. -/
theorem specWordsDecodeToTheirCommands : Obligations.SpecWordsDecodeToTheirCommands :=
  ⟨decode_encode (i := .wgInit) rfl, decode_encode (i := .wgSett 2048) rfl, decode_encode (i := .smpAvg 16) rfl,
    decode_encode (i := .hstRec 0x1234) rfl, decode_encode (i := .lutBuild) rfl, decode_encode (i := .lutSmooth) rfl,
    decode_encode (i := .lutCorrect 2002) rfl, decode_encode (i := .recLoad 8200) rfl⟩

/-! ## The rows of the table (R63) -/

theorem selects_iff (r : Row) (w : Word) :
    r.selects w = true ↔ w &&& r.mask = r.matchBits ∧ (r.nonZeroArg = true → argOf w ≠ 0) := by
  simp only [Row.selects, Bool.and_eq_true, beq_iff_eq, Bool.or_eq_true, Bool.not_eq_true', bne_iff_ne]
  cases r.nonZeroArg <;> simp

/-- Every word the row selects encodes a command with the row's mnemonic. -/
def Row.SelectsOnlyEncodings (r : Row) : Prop :=
  ∀ w, r.selects w = true → ∃ i : Instr, i.wellFormed = true ∧ encode i = w ∧ i.mnemonic = r.mnemonic

/-- A word that agrees with an operation code under the mask of U16 and N16 is packed from that code and its `arg`. -/
theorem packWord_of_and_maskU16 {w : Word} {op : Byte} (h : w &&& 0xFFFF0000#32 = packWord op 0) :
    packWord op (argOf w) = w := by
  have hv : w.toNat / 2 ^ 16 * 2 ^ 16 = op.toNat * 2 ^ 24 := by
    rw [← toNat_and_maskU16, h, toNat_packWord]
    simp
  apply BitVec.eq_of_toNat_eq
  rw [toNat_packWord, toNat_argOf, ← hv]
  exact Nat.div_add_mod' _ _

/-- A word that agrees with an operation code under the mask of L12 is packed from that code and a level. -/
theorem packWord_of_and_maskL12 {w : Word} {op : Byte} (h : w &&& 0xFFFFF000#32 = packWord op 0) :
    packWord op (0#4 ++ (argOf w).extractLsb' 0 12) = w := by
  have hv : w.toNat / 2 ^ 12 * 2 ^ 12 = op.toNat * 2 ^ 24 := by
    rw [← toNat_and_maskL12, h, toNat_packWord]
    simp
  apply BitVec.eq_of_toNat_eq
  rw [toNat_packWord, toNat_widenLevel, toNat_low12, toNat_argOf, Nat.mod_mod_of_dvd _ (by decide), ← hv]
  exact Nat.div_add_mod' _ _

theorem selectsOnlyEncodings_Z {i : Instr} (hwf : i.wellFormed = true) :
    Row.SelectsOnlyEncodings ⟨i.mnemonic, encode i, 0xFFFFFFFF#32, false⟩ := by
  intro w hw
  obtain ⟨hm, -⟩ := (selects_iff _ w).mp hw
  exact ⟨i, hwf, hm.symm.trans (and_maskZ w), rfl⟩

theorem selectsOnlyEncodings_L12 {op : Byte} {f : Level → Instr} {name : String}
    (hf : ∀ level, (f level).HasFields op (0#4 ++ level)) (hname : ∀ level, (f level).mnemonic = name) :
    Row.SelectsOnlyEncodings ⟨name, packWord op 0, 0xFFFFF000#32, false⟩ := by
  intro w hw
  obtain ⟨hm, -⟩ := (selects_iff _ w).mp hw
  obtain ⟨hwf, henc⟩ := hf ((argOf w).extractLsb' 0 12)
  exact ⟨_, hwf, henc.trans (packWord_of_and_maskL12 hm), hname _⟩

/-- The rows of U16, whose operand is free, and of N16, whose operand is not 0. -/
theorem selectsOnlyEncodings_U16 {op : Byte} {f : Half → Instr} {name : String} {nonZero : Bool}
    (hf : ∀ arg, (nonZero = true → arg ≠ 0) → (f arg).HasFields op arg) (hname : ∀ arg, (f arg).mnemonic = name) :
    Row.SelectsOnlyEncodings ⟨name, packWord op 0, 0xFFFF0000#32, nonZero⟩ := by
  intro w hw
  obtain ⟨hm, hz⟩ := (selects_iff _ w).mp hw
  obtain ⟨hwf, henc⟩ := hf (argOf w) hz
  exact ⟨_, hwf, henc.trans (packWord_of_and_maskU16 hm), hname _⟩

/-- Each row of R63 by its format. -/
theorem selectsOnlyEncodings_table : ∀ r ∈ table, r.SelectsOnlyEncodings := by
  simp only [table, List.forall_mem_cons, List.not_mem_nil, false_implies, implies_true, and_true]
  exact ⟨selectsOnlyEncodings_Z (i := .wgInit) rfl,
    selectsOnlyEncodings_L12 (op := 0x02#8) (f := .wgSett) (fun _ => ⟨rfl, rfl⟩) (fun _ => rfl),
    selectsOnlyEncodings_Z (i := .wgFeed) rfl,
    selectsOnlyEncodings_Z (i := .smpRaw) rfl,
    selectsOnlyEncodings_U16 (op := 0x11#8) (f := .smpAvg) (fun _ hne => ⟨bne_iff_ne.mpr (hne rfl), rfl⟩)
      (fun _ => rfl),
    selectsOnlyEncodings_Z (i := .hstClr) rfl,
    selectsOnlyEncodings_U16 (op := 0x21#8) (f := .hstRec) (fun _ _ => ⟨rfl, rfl⟩) (fun _ => rfl),
    selectsOnlyEncodings_Z (i := .hstCollect) rfl,
    selectsOnlyEncodings_Z (i := .lutBuild) rfl,
    selectsOnlyEncodings_Z (i := .lutSmooth) rfl,
    selectsOnlyEncodings_L12 (op := 0x32#8) (f := .lutCorrect) (fun _ => ⟨rfl, rfl⟩) (fun _ => rfl),
    selectsOnlyEncodings_Z (i := .recStore) rfl,
    selectsOnlyEncodings_U16 (op := 0x41#8) (f := .recLoad) (fun _ _ => ⟨rfl, rfl⟩) (fun _ => rfl)⟩

/-- Every well-formed command's encoding selects the row with its mnemonic. -/
theorem encode_selects_row (i : Instr) : Laws.EncodesItsRow.Statement i := by
  cases i with
  | wgInit => exact Laws.EncodesItsRow.wgInit
  | wgSett level => exact Laws.EncodesItsRow.wgSett level
  | wgFeed => exact Laws.EncodesItsRow.wgFeed
  | smpRaw => exact Laws.EncodesItsRow.smpRaw
  | smpAvg n => exact Laws.EncodesItsRow.smpAvg n
  | hstClr => exact Laws.EncodesItsRow.hstClr
  | hstRec code => exact Laws.EncodesItsRow.hstRec code
  | hstCollect => exact Laws.EncodesItsRow.hstCollect
  | lutBuild => exact Laws.EncodesItsRow.lutBuild
  | lutSmooth => exact Laws.EncodesItsRow.lutSmooth
  | lutCorrect raw => exact Laws.EncodesItsRow.lutCorrect raw
  | recStore => exact Laws.EncodesItsRow.recStore
  | recLoad size => exact Laws.EncodesItsRow.recLoad size

theorem row_eq_of_mnemonic : ∀ r ∈ table, ∀ r' ∈ table, r.mnemonic = r'.mnemonic → r = r' := by decide

/-- A word that decodes is selected by a row with the command's mnemonic. -/
theorem exists_row_of_decode {w : Word} {i : Instr} (h : decode w = .ok i) :
    ∃ r ∈ table, r.mnemonic = i.mnemonic ∧ r.selects w = true := by
  obtain ⟨hwf, rfl⟩ := encode_of_decode h
  exact encode_selects_row i hwf

theorem selects_iff_decode (w : Word) {r : Row} (hr : r ∈ table) :
    r.selects w = true ↔ ∃ i, decode w = .ok i ∧ i.mnemonic = r.mnemonic := by
  constructor
  · intro hw
    obtain ⟨i, hwf, henc, hname⟩ := selectsOnlyEncodings_table r hr w hw
    exact ⟨i, decode_eq_ok_iff.mpr ⟨hwf, henc⟩, hname⟩
  · rintro ⟨i, hi, hname⟩
    obtain ⟨r', hr', hname', hw⟩ := exists_row_of_decode hi
    rwa [row_eq_of_mnemonic r hr r' hr' (hname.symm.trans hname'.symm)]

/-- Settles O4: two rows that select one word have the mnemonic of the command it decodes to. -/
theorem wordDecodesToTheRowThatSelectsIt : Obligations.WordDecodesToTheRowThatSelectsIt := by
  intro w
  refine ⟨fun r hr => selects_iff_decode w hr, fun r hr r' hr' hw hw' => ?_⟩
  obtain ⟨i, hi, hname⟩ := (selects_iff_decode w hr).mp hw
  obtain ⟨i', hi', hname'⟩ := (selects_iff_decode w hr').mp hw'
  cases hi.symm.trans hi'
  exact row_eq_of_mnemonic r hr r' hr' (hname.symm.trans hname')

/-! ## The reserved words (R64) -/

/-- The operation codes of R63. -/
def opcodes : List Byte :=
  [0x01#8, 0x02#8, 0x03#8, 0x10#8, 0x11#8, 0x20#8, 0x21#8, 0x22#8, 0x30#8, 0x31#8, 0x32#8, 0x40#8, 0x41#8]

/-- The operation codes of format Z. -/
def opcodesZ : List Byte := [0x01#8, 0x03#8, 0x10#8, 0x20#8, 0x22#8, 0x30#8, 0x31#8, 0x40#8]

/-- The operation codes of format L12. -/
def opcodesL12 : List Byte := [0x02#8, 0x32#8]

/-- R64's list for the fields `op` and `arg`: a code of no row, or an operand outside its code's format. -/
def ReservedFields (op : Byte) (arg : Half) : Prop :=
  op ∉ opcodes ∨ (op ∈ opcodesZ ∧ arg ≠ 0) ∨ (op ∈ opcodesL12 ∧ arg.extractLsb' 12 4 ≠ 0) ∨ (op = 0x11#8 ∧ arg = 0)

theorem reservedFields_Z_iff {op : Byte} (h : op ∈ opcodesZ) (arg : Half) : ReservedFields op arg ↔ arg ≠ 0 := by
  have hop : op ∈ opcodes ∧ op ∉ opcodesL12 ∧ op ≠ 0x11#8 := by
    revert op
    decide
  simp [ReservedFields, h, hop]

theorem reservedFields_L12_iff {op : Byte} (h : op ∈ opcodesL12) (arg : Half) :
    ReservedFields op arg ↔ arg.extractLsb' 12 4 ≠ 0 := by
  have hop : op ∈ opcodes ∧ op ∉ opcodesZ ∧ op ≠ 0x11#8 := by
    revert op
    decide
  simp [ReservedFields, h, hop]

theorem decodes_formatZ_iff {op : Byte} (h : op ∈ opcodesZ) (arg : Half) (i : Instr) :
    (∃ j, formatZ arg i = .ok j) ↔ ¬ ReservedFields op arg := by
  rw [reservedFields_Z_iff h, not_not]
  exact ⟨fun ⟨_, hj⟩ => (formatZ_ok hj).1, fun h0 => ⟨i, if_pos h0⟩⟩

theorem decodes_formatL12_iff {op : Byte} (h : op ∈ opcodesL12) (arg : Half) (f : Level → Instr) :
    (∃ j, formatL12 arg f = .ok j) ↔ ¬ ReservedFields op arg := by
  rw [reservedFields_L12_iff h, not_not]
  exact ⟨fun ⟨_, hj⟩ => (formatL12_ok hj).1, fun h0 => ⟨_, if_pos h0⟩⟩

theorem decodes_formatN16_iff (arg : Half) (f : Half → Instr) :
    (∃ j, formatN16 arg f = .ok j) ↔ ¬ ReservedFields 0x11#8 arg := by
  have hres : ReservedFields 0x11#8 arg ↔ arg = 0 := by simp [ReservedFields, opcodes, opcodesZ, opcodesL12]
  rw [hres]
  exact ⟨fun ⟨_, hj⟩ => (formatN16_ok hj).1, fun h0 => ⟨_, formatN16_of_ne h0 f⟩⟩

theorem decodes_formatU16_iff {op : Byte} (h : op ∈ [0x21#8, 0x41#8]) (arg : Half) (f : Half → Instr) :
    (∃ j, formatU16 arg f = .ok j) ↔ ¬ ReservedFields op arg := by
  have hop : op ∈ opcodes ∧ op ∉ opcodesZ ∧ op ∉ opcodesL12 ∧ op ≠ 0x11#8 := by
    revert op
    decide
  exact iff_of_true ⟨_, rfl⟩ (by simp [ReservedFields, hop])

/-- The opcode map refuses exactly the reserved fields: one line a row of R63. -/
theorem decodes_decodeOp_iff (op : Byte) (arg : Half) : (∃ i, decodeOp op arg = .ok i) ↔ ¬ ReservedFields op arg := by
  unfold decodeOp
  split
  · exact decodes_formatZ_iff (by decide) arg _
  · exact decodes_formatL12_iff (by decide) arg _
  · exact decodes_formatZ_iff (by decide) arg _
  · exact decodes_formatZ_iff (by decide) arg _
  · exact decodes_formatN16_iff arg _
  · exact decodes_formatZ_iff (by decide) arg _
  · exact decodes_formatU16_iff (by decide) arg _
  · exact decodes_formatZ_iff (by decide) arg _
  · exact decodes_formatZ_iff (by decide) arg _
  · exact decodes_formatZ_iff (by decide) arg _
  · exact decodes_formatL12_iff (by decide) arg _
  · exact decodes_formatZ_iff (by decide) arg _
  · exact decodes_formatU16_iff (by decide) arg _
  · have hop : op ∉ opcodes := by simp_all [opcodes]
    exact iff_of_false (fun ⟨_, hi⟩ => nomatch hi) (not_not.mpr (.inl hop))

/-- A word decodes exactly when `rsv` is 0 and its other fields are not reserved. -/
theorem decodes_iff (w : Word) : (∃ i, decode w = .ok i) ↔ rsvOf w = 0 ∧ ¬ ReservedFields (opOf w) (argOf w) := by
  rw [← decodes_decodeOp_iff]
  constructor
  · rintro ⟨i, hi⟩
    obtain ⟨hrsv, hop⟩ := decode_ok hi
    exact ⟨hrsv, i, hop⟩
  · rintro ⟨hrsv, i, hop⟩
    exact ⟨i, (if_pos hrsv).trans hop⟩

/-- No row selects a word exactly when the word does not decode. -/
theorem forall_not_selects_iff (w : Word) : (∀ r ∈ table, r.selects w = false) ↔ ¬ ∃ i, decode w = .ok i := by
  constructor
  · rintro hnone ⟨i, hi⟩
    obtain ⟨r, hr, -, hw⟩ := exists_row_of_decode hi
    cases (hnone r hr).symm.trans hw
  · intro hnone r hr
    rw [← Bool.not_eq_true, selects_iff_decode w hr]
    exact fun ⟨i, hi, _⟩ => hnone ⟨i, hi⟩

theorem exists_decode_error {w : Word} (h : ∀ r ∈ table, r.selects w = false) : ∃ e, decode w = .error e := by
  cases hd : decode w with
  | ok i => exact absurd ⟨i, hd⟩ ((forall_not_selects_iff w).mp h)
  | error e => exact ⟨e, rfl⟩

end Sys2Proof

namespace Sys2Proof.Machine

theorem raise_illegalCommand (s : State) :
    s.raise .illegalCommand =
      { s with result := 0, status := { ok := false, ill := true, cause := .illegalCommand } } := by
  show { s with result := 0, status := { ok := false, ill := s.status.ill || true, cause := .illegalCommand } } = _
  rw [Bool.or_true]

/-- Settles O5: R64's list is what the decoder refuses, and the step raises the one cause. -/
theorem reservedWordRaisesIllegalCommand : Obligations.ReservedWordRaisesIllegalCommand := by
  refine ⟨fun w => ?_, fun s rest w hs hh hnone => ⟨beginAccess rest s, rfl, ?_⟩⟩
  · rw [forall_not_selects_iff, decodes_iff, not_and_or, not_not]
    exact or_left_comm
  · obtain ⟨e, he⟩ := exists_decode_error hnone
    rw [step_of_commandWrite hs hh rfl, runCommand_of_error he, raise_illegalCommand]

end Sys2Proof.Machine
end

section
/-! The Waveform Generator: the bits of the words generated at a constant level are the carries of the accumulator, so
that their number is a quotient by 2^32; and the generator's commands and the serializer's step, rule by rule. -/

namespace Sys2Proof.Machine

/-! ## The carries of the accumulator (R82, R83) -/

/-- Whether the `k`-th addition of `inc` to an accumulator that starts at `acc` carries out of 32 bits. -/
def carryAt (acc inc k : Nat) : Bool := decide (2 ^ 32 ≤ (acc + k * inc) % 2 ^ 32 + inc)

/-- The carries of the first `m` additions, in order. -/
def carries (acc inc m : Nat) : List Bool := (List.range m).map (carryAt acc inc)

/-- An addition carries exactly when the sum without a modulus passes a multiple of 2^32. -/
theorem div_succ_eq_add_carryAt (acc k : Nat) {inc : Nat} (h : inc < 2 ^ 32) :
    (acc + (k + 1) * inc) / 2 ^ 32 = (acc + k * inc) / 2 ^ 32 + (carryAt acc inc k).toNat := by
  rw [Nat.succ_mul, carryAt]
  by_cases hc : 2 ^ 32 ≤ (acc + k * inc) % 2 ^ 32 + inc
  · rw [decide_eq_true hc, Bool.toNat_true]
    omega
  · rw [decide_eq_false hc, Bool.toNat_false]
    omega

/-- The carries counted are the multiples of 2^32 passed. -/
theorem count_carries {acc inc : Nat} (ha : acc < 2 ^ 32) (hi : inc < 2 ^ 32) (m : Nat) :
    (carries acc inc m).count true = (acc + m * inc) / 2 ^ 32 := by
  induction m with
  | zero => rw [Nat.zero_mul, Nat.add_zero, Nat.div_eq_of_lt ha]; rfl
  | succ m ih =>
    rw [div_succ_eq_add_carryAt acc m hi, ← ih]
    cases hc : carryAt acc inc m <;> simp [carries, List.range_succ, hc]

/-- After `m` additions the carries go on from the accumulator these leave. -/
theorem carries_add (acc inc m n : Nat) :
    carries acc inc (m + n) = carries acc inc m ++ carries ((acc + m * inc) % 2 ^ 32) inc n := by
  have hnext (k : Nat) : carryAt acc inc (m + k) = carryAt ((acc + m * inc) % 2 ^ 32) inc k := by
    simp only [carryAt, Nat.mod_add_mod, Nat.add_mul, Nat.add_assoc]
  simp only [carries, List.range_add, List.map_append, List.map_map, Function.comp_def, hnext]

/-! ## Words at a constant level (R87, R91) -/

theorem increment_lt (t : Level) : t.toNat * 2 ^ 20 < 2 ^ 32 := by
  have := t.isLt
  omega

theorem toNat_genWord_acc (acc : Word) (t : Level) :
    (genWord acc t).1.toNat = (acc.toNat + 32 * (t.toNat * 2 ^ 20)) % 2 ^ 32 := by
  rw [genWord_eq, toNat_modAfter_acc, toNat_increment]

theorem getLsbD_genWord (acc : Word) (t : Level) {k : Nat} (hk : k < 32) :
    (genWord acc t).2.getLsbD (31 - k) = carryAt acc.toNat (t.toNat * 2 ^ 20) k := by
  rw [genWord_eq, modAfter_bit _ _ le_rfl hk, toNat_increment, decide_eq_true hk, Bool.true_and, carryAt]

theorem wordBits_genWord (acc : Word) (t : Level) :
    wordBits (genWord acc t).2 = carries acc.toNat (t.toNat * 2 ^ 20) 32 := by
  refine List.map_congr_left fun k hk => ?_
  have hk := List.mem_range.mp hk
  rw [← getLsbD_genWord acc t hk, BitVec.getMsbD, decide_eq_true hk, Bool.true_and]

theorem modWords_bits (t : Level) (n : Nat) (acc : Word) :
    (modWords t n acc).1.flatMap wordBits = carries acc.toNat (t.toNat * 2 ^ 20) (32 * n) := by
  induction n generalizing acc with
  | zero => rfl
  | succ n ih =>
    rw [modWords, List.flatMap_cons, ih, wordBits_genWord, toNat_genWord_acc, ← carries_add, Nat.mul_succ,
      Nat.add_comm]

theorem toNat_modWords_acc (t : Level) (n : Nat) (acc : Word) :
    (modWords t n acc).2.toNat = (acc.toNat + 32 * n * (t.toNat * 2 ^ 20)) % 2 ^ 32 := by
  induction n generalizing acc with
  | zero => simp [modWords, Nat.mod_eq_of_lt acc.isLt]
  | succ n ih =>
    rw [modWords, ih, toNat_genWord_acc, Nat.mod_add_mod, Nat.add_assoc, ← Nat.add_mul, Nat.mul_succ, Nat.add_comm 32]

theorem ones_modWords (t : Level) (n : Nat) (acc : Word) :
    ones (modWords t n acc).1 = (acc.toNat + 32 * n * (t.toNat * 2 ^ 20)) / 2 ^ 32 := by
  rw [ones, modWords_bits, count_carries acc.isLt (increment_lt t)]

/-- Settles O21: each bit is a carry. -/
theorem genWordIsTheClosedForm : Obligations.GenWordIsTheClosedForm := by
  intro acc t
  simp only [Nat.mul_assoc]
  refine ⟨toNat_genWord_acc acc t, fun k hk => ?_, ?_⟩
  · rw [getLsbD_genWord acc t hk, div_succ_eq_add_carryAt _ _ (increment_lt t), Nat.add_sub_cancel_left]
  · rw [wordBits_genWord, count_carries acc.isLt (increment_lt t)]

/-- Settles O22: the ones are a quotient by 2^32, off by less than 1 above, as the start is below 2^32, and below. -/
theorem modulatorIsFaithful : Obligations.ModulatorIsFaithful := by
  intro acc t n
  have := acc.isLt
  rw [ones_modWords, ← Nat.mul_assoc]
  omega

/-! ## The period (R88) -/

/-- With an increment `d` short of 2^32 each addition takes `d` off and carries, as long as `d` is there to be taken. -/
theorem carryAt_succ_of_short {inc d : Nat} (hd : inc + d = 2 ^ 32) (hpos : 0 < d) {k : Nat}
    (hk : (k + 2) * d ≤ 2 ^ 32) : carryAt 0 inc (k + 1) = true := by
  have hsum : (k + 1) * inc + (k + 1) * d = (k + 1) * 2 ^ 32 := by rw [← Nat.mul_add, hd]
  have htaken : 0 < (k + 1) * d := Nat.mul_pos k.succ_pos hpos
  have hsplit : (k + 2) * d = (k + 1) * d + d := Nat.succ_mul (k + 1) d
  refine decide_eq_true ?_
  omega

/-- The first addition to 0 only sets the accumulator to the increment. -/
theorem carryAt_zero_zero {inc : Nat} (hi : inc < 2 ^ 32) : carryAt 0 inc 0 = false :=
  decide_eq_false (by omega)

theorem carries_of_short {inc d : Nat} (hd : inc + d = 2 ^ 32) (hpos : 0 < d) {m : Nat} (hm : (m + 1) * d ≤ 2 ^ 32) :
    carries 0 inc (m + 1) = false :: List.replicate m true := by
  have htail : (List.range m).map (carryAt 0 inc ∘ Nat.succ) = List.replicate m true := by
    refine List.eq_replicate_iff.mpr ⟨by rw [List.length_map, List.length_range], fun b hb => ?_⟩
    obtain ⟨k, hk, rfl⟩ := List.mem_map.mp hb
    have hle : k + 2 ≤ m + 1 := Nat.succ_le_succ (List.mem_range.mp hk)
    exact carryAt_succ_of_short hd hpos ((Nat.mul_le_mul_right d hle).trans hm)
  rw [carries, List.range_succ_eq_map, List.map_cons, List.map_map, htail, carryAt_zero_zero (by omega)]

/-- Settles O23: 128 words add `T` times 2^32 to the accumulator, and the increment of level 4095 is 2^20 short of
2^32. -/
theorem modulatorHasPeriod128Words : Obligations.ModulatorHasPeriod128Words := by
  refine ⟨fun acc t => ?_, (modWords_bits 4095 128 0).trans ?_⟩
  · have := acc.isLt
    rw [ones_modWords, ← BitVec.toNat_inj, toNat_modWords_acc]
    omega
  · exact carries_of_short (d := 2 ^ 20) (m := 4095) (by decide) (by decide) (by decide)

/-! ## The serializer's step (R89, R90) -/

theorem shiftLeft_one_eq (w : Word) : w <<< 1 = w * 2 := by
  rw [BitVec.shiftLeft_eq_mul_twoPow]
  rfl

/-- Settles O14: a step is a load, a shift or nothing. -/
theorem serializerLoadsShiftsOrStarves : Obligations.SerializerLoadsShiftsOrStarves := by
  refine fun o => ⟨fun w rest hc hq => output_step_load hc hq, fun hc => ?_, output_step_starved⟩
  rw [output_step_shift (Nat.ne_of_gt hc)]
  exact ⟨rfl, shiftLeft_one_eq o.sr, rfl, rfl, rfl⟩

/-! ## The commands (R81, R85, R86) -/

/-- Settles O17: no field of the output path but `Q`, `SRCNT` and the pin is written. -/
theorem wgInitResetsTheGenerator : Obligations.WgInitResetsTheGenerator :=
  fun s => ⟨_, exec_wgInit s, rfl, rfl, rfl, rfl, rfl⟩

/-- Settles O18: the target is written and the command completes with 0. -/
theorem wgSettSetsTheTarget : Obligations.WgSettSetsTheTarget :=
  exec_wgSett

theorem qfull_eq_false_iff (s : State) : s.qfull = false ↔ s.output.q.length ≠ Config.qdepth := by
  rw [← Bool.not_eq_true, qfull_iff]

/-- Settles O19: the attempt has room, and the command completes with its word. -/
theorem wgFeedQueuesTheNextWord : Obligations.WgFeedQueuesTheNextWord := by
  intro s hq
  have hroom := (qfull_eq_false_iff s).mpr hq
  rw [exec_wgFeed_of_room hroom, feedAttempt_of_room hroom]
  rfl

/-- `QUEUE_FULL` is not the cause that sets `ILL` (R172). -/
theorem raise_queueFull (s : State) :
    s.raise .queueFull = { s with result := 0, status := { s.status with ok := false, cause := .queueFull } } := by
  show { s with result := 0, status := { ok := false, ill := s.status.ill || false, cause := .queueFull } } = _
  rw [Bool.or_false]

/-- Settles O20: a full queue is tested for before anything is written. -/
theorem wgFeedOnAFullQueueChangesNothing : Obligations.WgFeedOnAFullQueueChangesNothing := by
  intro s hq
  have hfull := (qfull_iff s).mpr hq
  rw [feedAttempt_of_full hfull, exec_wgFeed_of_full hfull, raise_queueFull]
  exact ⟨rfl, rfl, rfl⟩

end Sys2Proof.Machine
end

section
/-! The Sampler: an average is the loop of its samples followed by the division, whose sum of 16-bit answers cannot wrap;
and the three ends of its two commands. -/

namespace Sys2Proof.Machine

/-! ## The bounds of an average (R104) -/

theorem sum_answers_le (n : Nat) (e : Env) : ((List.range n).map fun i => (e.answer i).toNat).sum ≤ n * 65535 := by
  refine (List.sum_le_card_nsmul _ 65535 fun v hv => ?_).trans_eq (by simp)
  obtain ⟨i, -, rfl⟩ := List.mem_map.mp hv
  exact Nat.le_of_lt_succ (e.answer i).isLt

/-- A sum of 16-bit values has a 16-bit mean: half a divisor is not enough to reach the next quotient. -/
theorem roundedMean_le {sum n : Nat} (hn : 0 < n) (hsum : sum ≤ n * 65535) : roundedMean sum n ≤ 65535 := by
  refine Nat.le_of_lt_succ (Nat.div_lt_of_lt_mul ?_)
  omega

/-- Settles O27: each answer is at most 65535, and so is their number. -/
theorem averageNeverWraps : Obligations.AverageNeverWraps := by
  intro n e hn
  have hsum := sum_answers_le n.toNat e
  have hlt := n.isLt
  exact ⟨by omega, by omega, roundedMean_le (BitVec.toNat_pos_of_ne_zero hn) hsum⟩

/-! ## `SMP.RAW` (R101, R102) -/

theorem sample_acc (s : State) : (sample s).2.acc = if s.qfull then s.acc else (genWord s.acc s.target).1 := rfl

/-- A sample adds to the stream what its feed attempt queues: the serializer's turn moves bits, it adds none. -/
theorem stream_sample (s : State) :
    (sample s).2.output.stream =
      s.output.stream ++ (if s.qfull then [] else wordBits (genWord s.acc s.target).2) :=
  (stream_run _ _).trans (stream_feedAttempt s)

/-- A sample leaves the converter at the answer after its own. -/
theorem answer_sample (s : State) (i : Nat) : (sample s).2.env.answer i = s.env.answer (i + 1) := by
  rw [sample_env, answer_afterDraw, answer_afterTurn]

/-- Settles O24: the command completes with one sample, whose value is the converter's next answer. -/
theorem smpRawReturnsTheSample : Obligations.SmpRawReturnsTheSample := by
  refine fun s => ⟨_, exec_smpRaw s, rfl, ?_, ?_, ?_, rfl, answer_sample s⟩
  · exact BitVec.toNat_setWidth_of_le (by decide)
  · simp only [complete_acc, sample_acc, qfull_iff]
  · simp only [complete_output, stream_sample, qfull_iff]

/-! ## `SMP.AVG` (R103) -/

/-- The converter's answers after `n` samples are those that followed them. -/
theorem answer_averageLoop (n : Nat) (s : State) (i : Nat) :
    (averageLoop n s).env.answer i = s.env.answer (i + n) := by
  induction n generalizing s with
  | zero => rfl
  | succ n ih =>
    calc (averageLoop (n + 1) s).env.answer i
        = (sample (serializerTurn s)).2.env.answer (i + n) := ih _
      _ = s.env.answer (i + n + 1) := answer_sample (serializerTurn s) (i + n)

/-- The whole command: `n` samples, then the rounded mean of their answers. -/
theorem exec_smpAvg_eq_averageLoop {n : Half} (hn : n ≠ 0) (s : State) :
    exec (.smpAvg n) s = .next
      (finishAvg n.toNat ((List.range n.toNat).map fun i => (s.env.answer i).toNat).sum (averageLoop n.toNat s)) := by
  rw [exec_smpAvg_of_ne_zero hn, seqRun_avg n.toNat n.toNat 0 0 _ rfl (Nat.zero_add _), averageLoop_withSeq,
    Nat.zero_add]
  rfl

/-- Settles O25: the engine runs the loop of the samples, and the mean fits `RESULT`. -/
theorem smpAvgReturnsTheRoundedMean : Obligations.SmpAvgReturnsTheRoundedMean := by
  refine fun n s hn => ⟨_, exec_smpAvg_eq_averageLoop hn s, ?_, ?_, rfl, rfl, rfl, averageLoop_draws n.toNat s,
    answer_averageLoop n.toNat s⟩
  · exact congrArg (finishAvg _ _) (averageLoop_frame n.toNat s)
  · have hmean := roundedMean_le (BitVec.toNat_pos_of_ne_zero hn) (sum_answers_le n.toNat s.env)
    exact (BitVec.toNat_ofNat _ 32).trans (Nat.mod_eq_of_lt (by omega))

/-- Settles O26: the reserved operand raises the cause of a reserved word (R64). -/
theorem smpAvgOfZeroIsIllegal : Obligations.SmpAvgOfZeroIsIllegal :=
  fun s => (exec_smpAvg_of_zero s).trans (congrArg _ (raise_illegalCommand s))

end Sys2Proof.Machine
end

section
/-! The Histogram Collector: the run of a collection is its passes, each of 4096 visits, so every counter ends at the
tally of the run's answers. -/

namespace Sys2Proof.Machine

/-! ## The primitive actions (R111, R112, R113) -/

/-- The histogram zeroed, and nothing else. -/
def State.cleared (s : State) : State := { s with hist := Vector.replicate 4096 0 }

theorem histAt_cleared (s : State) {i : Nat} (hi : i < 4096) : s.cleared.histAt i = 0#32 :=
  getD_replicate 4096 0 i 0 hi

/-- Settles O28: the command completes with the histogram cleared. -/
theorem hstClrZeroesTheHistogram : Obligations.HstClrZeroesTheHistogram :=
  fun s => ⟨_, exec_hstClr s, rfl, fun _ => histAt_cleared s⟩

theorem histAt_record_of_ne {v : Half} {i : Nat} (h : i ≠ v.toNat) (s : State) :
    (record v s).histAt i = s.histAt i := by
  rw [histAt_record, if_neg fun hv => h hv.1]

theorem histAt_record_same {v : Half} (h : v.toNat ≤ 4095) (s : State) :
    ((record v s).histAt v.toNat).toNat = ((s.histAt v.toNat).toNat + 1) % 2 ^ 32 := by
  rw [histAt_record, if_pos ⟨rfl, h⟩, BitVec.toNat_add]
  rfl

theorem record_hist_of_gt {v : Half} (h : 4095 < v.toNat) (s : State) : (record v s).hist = s.hist :=
  if_neg (Nat.not_le.mpr h)

/-- Settles O29: the command completes with the code recorded. -/
theorem hstRecCountsOneCode : Obligations.HstRecCountsOneCode :=
  fun code s => ⟨_, exec_hstRec code s, rfl, fun h => histAt_record_same h s, fun _ _ hi => histAt_record_of_ne hi s,
    fun h => record_hist_of_gt h s⟩

/-! ## The position of a collection (R114, R115) -/

/-- The first `j` visits of a pass. -/
def visits (spl st pass j : Nat) (s : State) : State :=
  (List.range j).foldl (fun s j => visit spl st (visitLevel pass j) s) s

theorem visits_succ (spl st pass j : Nat) (s : State) :
    visits spl st pass (j + 1) s = visit spl st (visitLevel pass j) (visits spl st pass j s) := by
  simp only [visits, List.range_succ, List.foldl_append, List.foldl_cons, List.foldl_nil]

/-- The state after the first `p` passes of a collection from `s`. -/
def State.swept (s : State) (p : Nat) : State :=
  (List.range p).foldl (fun s' pass => sweep s.samplesPerLevel.toNat s.settleTicks.toNat pass s') s.cleared

theorem swept_succ (s : State) (p : Nat) :
    s.swept (p + 1) = sweep s.samplesPerLevel.toNat s.settleTicks.toNat p (s.swept p) := by
  simp only [State.swept, List.range_succ, List.foldl_append, List.foldl_cons, List.foldl_nil]

theorem collectLoop_eq (s : State) : collectLoop s = finishCollect (s.swept s.numSweeps.toNat) := rfl

/-- The first visits of a pass bring the sequencer to the next one. -/
theorem seqRun_visits_before (ns spl st pass : Nat) {j : Nat} (hj : j < 4096) (s : State) :
    seqRun (j * (st + spl + 2)) (enterVisit ns spl st pass (visitLevel pass 0) s) =
      enterVisit ns spl st pass (visitLevel pass j) (visits spl st pass j s) := by
  induction j with
  | zero => rw [Nat.zero_mul]; rfl
  | succ j ih =>
    rw [Nat.succ_mul, seqRun_add, ih (by omega), seqRun_visit, ← visits_succ, leaveVisit,
      nextVisit_of_lt ns pass (by omega)]

/-- The first passes of a collection bring the sequencer to the next one. -/
theorem seqRun_passes_before (s : State) {p : Nat} (hp : p < s.numSweeps.toNat) :
    seqRun (p * (4096 * (s.settleTicks.toNat + s.samplesPerLevel.toNat + 2))) (startCollect s) =
      enterVisit s.numSweeps.toNat s.samplesPerLevel.toNat s.settleTicks.toNat p (visitLevel p 0) (s.swept p) := by
  induction p with
  | zero => rw [Nat.zero_mul, startCollect_of_sweeps (by omega)]; rfl
  | succ p ih =>
    rw [Nat.succ_mul, seqRun_add, ih (by omega), seqRun_pass, ← swept_succ, leaveVisit, nextVisit_last, if_pos hp]

/-- The run of all the passes ends the collection. -/
theorem seqRun_collect (s : State) : seqRun (collectSteps s) (startCollect s) = collectLoop s := by
  rw [collectLoop_eq, collectSteps]
  by_cases h : s.numSweeps.toNat = 0
  · rw [h, Nat.zero_mul, startCollect_of_noSweeps h]
    rfl
  · obtain ⟨m, hm⟩ := Nat.exists_eq_add_one_of_ne_zero h
    rw [hm, Nat.succ_mul, seqRun_add, seqRun_passes_before s (by omega), seqRun_pass, ← swept_succ, leaveVisit,
      nextVisit_last, hm, if_neg (Nat.lt_irrefl _)]

/-- Settles O32: the sequencer enters and leaves the passes of the loops one after another. -/
theorem hstCollectIsThePseudocode : Obligations.HstCollectIsThePseudocode :=
  fun s => (exec_hstCollect s).trans (congrArg _ (seqRun_collect s))

/-! ## The tally of a collection (R112, R114, R117, R119) -/

theorem tally_visits (spl st pass j : Nat) (s : State) : Tally s (visits spl st pass j s) (j * spl) := by
  have := tally_foldl (fun s j => tally_visit spl st (visitLevel pass j) s) (List.range j) s
  rwa [List.length_range] at this

theorem tally_swept (s : State) (p : Nat) : Tally s.cleared (s.swept p) (p * 4096 * s.samplesPerLevel.toNat) := by
  have := tally_foldl (fun u pass => tally_sweep s.samplesPerLevel.toNat s.settleTicks.toNat pass u) (List.range p)
    s.cleared
  rwa [List.length_range, ← Nat.mul_assoc] at this

/-- A counter after a collection is the number of the run's answers equal to its code, modulo 2^32. -/
theorem histAt_collectLoop (s : State) {c : Nat} (hc : c < 4096) :
    ((collectLoop s).histAt c).toNat =
      ((List.range (collectSamples s)).countP fun i => (s.env.answer i).toNat = c) % 2 ^ 32 := by
  have h := (tally_swept s s.numSweeps.toNat).counts c hc
  rwa [histAt_cleared s hc, BitVec.toNat_zero, Nat.zero_add] at h

/-- Settles O30: the loops tally every sample, and the end of the run touches neither counter nor environment. -/
theorem hstCollectTalliesEverySample : Obligations.HstCollectTalliesEverySample := by
  intro s
  obtain ⟨hframe, henv, hanswers, -⟩ := tally_swept s s.numSweeps.toNat
  refine ⟨_, hstCollectIsThePseudocode s, ?_, fun c hc => histAt_collectLoop s hc, henv, fun i => ?_⟩
  · exact congrArg finishCollect hframe
  · exact (hanswers i).trans (congrArg s.env.answer (Nat.add_comm _ i))

/-- Counting by value: the values below `m` one by one, then all the others, are the whole list. -/
theorem sum_countP_add_countP_ge {α : Type} (f : α → Nat) (l : List α) (m : Nat) :
    ((List.range m).map fun c => l.countP fun a => f a = c).sum + (l.countP fun a => m ≤ f a) = l.length := by
  have hsplit : ∀ m, (l.countP fun a => m ≤ f a) = (l.countP fun a => f a = m) + l.countP fun a => m + 1 ≤ f a := by
    intro m
    induction l with
    | nil => rfl
    | cons a l ih =>
      simp only [List.countP_cons, ih, decide_eq_true_eq]
      split_ifs <;> omega
  induction m with
  | zero => simp
  | succ m ih =>
    rw [List.range_succ, List.map_append, List.sum_append, ← ih, hsplit m, Nat.add_assoc]
    simp

/-- Settles O31: without a wrap each counter is its code's share of the answers. -/
theorem histogramConservation : Obligations.HistogramConservation := by
  intro s t hwrap ht
  rw [hstCollectIsThePseudocode s] at ht
  cases ht
  have hcounters : ((List.range 4096).map fun c => ((collectLoop s).histAt c).toNat) =
      (List.range 4096).map fun c => (List.range (collectSamples s)).countP fun i => (s.env.answer i).toNat = c := by
    refine List.map_congr_left fun c hc => ?_
    have hc := List.mem_range.mp hc
    rw [histAt_collectLoop s hc, Nat.mod_eq_of_lt (hwrap c hc)]
  rw [hcounters]
  exact (sum_countP_add_countP_ge _ _ 4096).trans List.length_range

/-! ## Where each sample of a collection is taken (R115) -/

theorem times_target {f : State → State} (hf : ∀ s, (f s).target = s.target) (n : Nat) (s : State) :
    (times f n s).target = s.target := by
  induction n generalizing s with
  | zero => rfl
  | succ n ih => exact (ih (f s)).trans (hf s)

theorem visit_target (spl st : Nat) (level : Level) (s : State) : (visit spl st level s).target = level :=
  (times_target (f := collectSample) (fun _ => rfl) spl _).trans (times_target settleTick_target st _)

/-- The sample phase from count `k` on, as long as it lasts. -/
theorem seqRun_samples_before {ns spl st pass : Nat} {level : Level} (m k : Nat) (s : State)
    (h : s.seq = .collect ns spl st pass level (.sample k)) (hk : k + m ≤ spl) :
    seqRun m s = { times collectSample m s with seq := .collect ns spl st pass level (.sample (k + m)) } := by
  induction m generalizing k s with
  | zero => rw [Nat.add_zero, ← h]; rfl
  | succ m ih =>
    rw [seqRun, seqStep_sample h (by omega), ih (k + 1) _ rfl (by omega), times_succ, times_withSeq collectSample_withSeq,
      Nat.add_right_comm, Nat.add_assoc]

/-- A visit up to its sample `k` is a visit of `k` samples that is not left. -/
theorem seqRun_visit_before (ns st pass : Nat) {spl k : Nat} (hk : k ≤ spl) (level : Level) (s : State) :
    seqRun (st + 1 + k) (enterVisit ns spl st pass level s) =
      { visit k st level s with seq := .collect ns spl st pass level (.sample k) } := by
  have henter : enterVisit ns spl st pass level s =
      { ({ s with target := level } : State) with seq := .collect ns spl st pass level (.settle 0) } := rfl
  rw [seqRun_add, seqRun_settle st 0 _ rfl (Nat.zero_add st), seqRun_samples_before k 0 _ rfl (by omega),
    times_withSeq collectSample_withSeq, henter, times_withSeq settleTick_withSeq, times_withSeq collectSample_withSeq,
    Nat.zero_add]
  rfl

/-- The state in which a collection from `s` is about to take sample `k` of visit `j` of a pass, the sequencer's position
apart. -/
def State.beforeSample (s : State) (pass j k : Nat) : State :=
  visit k s.settleTicks.toNat (visitLevel pass j)
    (visits s.samplesPerLevel.toNat s.settleTicks.toNat pass j (s.swept pass))

theorem beforeSample_target (s : State) (pass j k : Nat) : (s.beforeSample pass j k).target = visitLevel pass j :=
  visit_target _ _ _ _

theorem tally_beforeSample (s : State) (pass j k : Nat) :
    Tally s.cleared (s.beforeSample pass j k) ((pass * 4096 + j) * s.samplesPerLevel.toNat + k) := by
  rw [Nat.add_mul]
  exact ((tally_swept s pass).trans (tally_visits _ _ _ _ _)).trans (tally_visit _ _ _ _)

/-- The micro-steps before a sample: the passes before it, the visits before it, its own visit's settling and samples. -/
theorem seqRun_beforeSample (s : State) {pass j k : Nat} (hpass : pass < s.numSweeps.toNat) (hj : j < 4096)
    (hk : k < s.samplesPerLevel.toNat) :
    seqRun ((pass * 4096 + j) * (s.settleTicks.toNat + s.samplesPerLevel.toNat + 2) + (s.settleTicks.toNat + 1) + k)
        (startCollect s) =
      { s.beforeSample pass j k with
        seq := .collect s.numSweeps.toNat s.samplesPerLevel.toNat s.settleTicks.toNat pass (visitLevel pass j)
          (.sample k) } := by
  rw [Nat.add_mul, Nat.mul_assoc pass, Nat.add_assoc, seqRun_add, seqRun_add (pass * _),
    seqRun_passes_before s hpass, seqRun_visits_before _ _ _ _ hj, seqRun_visit_before _ _ _ (Nat.le_of_lt hk)]
  rfl

/-- The level of sample `k` of visit `j` of a pass. -/
theorem sampleLevel_of_visit (pass : Nat) {spl j k : Nat} (hj : j < 4096) (hk : k < spl) :
    sampleLevel spl ((pass * 4096 + j) * spl + k) = if pass % 2 = 0 then j else 4095 - j := by
  have hvisit : ((pass * 4096 + j) * spl + k) / spl = pass * 4096 + j := by
    rw [Nat.mul_comm, Nat.mul_add_div (by omega), Nat.div_eq_of_lt hk, Nat.add_zero]
  unfold sampleLevel
  rw [hvisit, show (pass * 4096 + j) / 4096 = pass by omega, show (pass * 4096 + j) % 4096 = j by omega]

/-! ## How often each level is sampled (R114) -/

/-- Blocks of one length that count alike count as many times one of them. -/
theorem countP_range_mul {p : Nat → Bool} {n q m : Nat}
    (h : ∀ v, v < m → ((List.range n).countP fun k => p (v * n + k)) = q) : (List.range (m * n)).countP p = m * q := by
  induction m with
  | zero => simp
  | succ m ih =>
    rw [Nat.succ_mul, countP_range_add, ih fun v hv => h v (by omega), h m (Nat.lt_succ_self m), Nat.succ_mul]

/-- A block of `n` indices holds those whose quotient by `n` is its number. -/
theorem countP_range_div_eq (n j m : Nat) :
    ((List.range (m * n)).countP fun i => i / n = j) = if j < m then n else 0 := by
  induction m with
  | zero => simp
  | succ m ih =>
    have hblock : ((List.range n).countP fun k => decide ((m * n + k) / n = j)) = if m = j then n else 0 := by
      rw [List.countP_congr (q := fun _ => decide (m = j)) fun k hk => ?_]
      · by_cases h : m = j <;> simp [h]
      · have hk := List.mem_range.mp hk
        rw [Nat.mul_comm m, Nat.mul_add_div (by omega), Nat.div_eq_of_lt hk, Nat.add_zero]
    rw [Nat.succ_mul, countP_range_add, ih, hblock]
    split_ifs <;> omega

/-- A pass samples each level in one visit. -/
theorem countP_sampleLevel_pass (pass spl : Nat) {c : Nat} (hc : c < 4096) :
    ((List.range (4096 * spl)).countP fun i => sampleLevel spl (pass * (4096 * spl) + i) = c) = spl := by
  have hvisit : ∀ i ∈ List.range (4096 * spl),
      (decide (sampleLevel spl (pass * (4096 * spl) + i) = c) = true ↔
        decide (i / spl = if pass % 2 = 0 then c else 4095 - c) = true) := by
    intro i hi
    have hi := List.mem_range.mp hi
    have hpos : 0 < spl := Nat.pos_of_mul_pos_left (Nat.zero_lt_of_lt hi)
    have hj : i / spl < 4096 := Nat.div_lt_of_lt_mul (by rwa [Nat.mul_comm])
    have hi : pass * (4096 * spl) + i = (pass * 4096 + i / spl) * spl + i % spl := by
      rw [Nat.add_mul, Nat.mul_assoc, Nat.add_assoc, Nat.div_add_mod']
    rw [hi, sampleLevel_of_visit pass hj (Nat.mod_lt i hpos), decide_eq_true_eq, decide_eq_true_eq]
    split_ifs <;> omega
  rw [List.countP_congr hvisit, countP_range_div_eq, if_pos (by split_ifs <;> omega)]

/-- A collection samples each level in one visit of each pass. -/
theorem countP_sampleLevel (ns spl : Nat) {c : Nat} (hc : c < 4096) :
    ((List.range (ns * 4096 * spl)).countP fun i => sampleLevel spl i = c) = ns * spl := by
  rw [Nat.mul_assoc]
  exact countP_range_mul fun pass _ => countP_sampleLevel_pass pass spl hc

/-- Settles O33: a sample's position gives its level, and the tally of the levels is the same for every code. -/
theorem idealConverterGivesAUniformHistogram : Obligations.IdealConverterGivesAUniformHistogram := by
  refine fun s => ⟨fun pass j k hpass hj hk => ?_, fun hideal => ⟨_, hstCollectIsThePseudocode s, fun c hc => ?_⟩⟩
  · have hanswer := (tally_beforeSample s pass j k).answers 0
    have hlevel := toNat_visitLevel pass hj
    dsimp only
    rw [seqRun_beforeSample s hpass hj hk, sampleLevel_of_visit pass hj hk]
    simp only [beforeSample_target, true_and]
    exact ⟨hlevel, hlevel, hanswer⟩
  · have hcount : ((List.range (collectSamples s)).countP fun i => (s.env.answer i).toNat = c) =
        s.numSweeps.toNat * s.samplesPerLevel.toNat := by
      rw [← countP_sampleLevel _ _ hc]
      refine List.countP_congr fun i hi => ?_
      rw [hideal i (List.mem_range.mp hi)]
    have hfits : s.numSweeps.toNat * s.samplesPerLevel.toNat < 2 ^ 8 * 2 ^ 16 :=
      Nat.mul_lt_mul'' s.numSweeps.isLt s.samplesPerLevel.isLt
    rw [histAt_collectLoop s hc, hcount, Nat.mod_eq_of_lt (hfits.trans (by decide))]

end Sys2Proof.Machine
end

section
/-! The LUT Builder: the histogram's observed range, the samples the walk passes, and the table it leaves. -/

namespace Sys2Proof.Machine

/-! ## `LUT.BUILD` of an empty histogram (R134) -/

theorem raise_emptyHistogram (s : State) :
    State.raise .emptyHistogram s =
      { s with result := 0, status := { s.status with ok := false, cause := .emptyHistogram } } := by
  have hill : (s.status.ill || Cause.emptyHistogram == .illegalCommand) = s.status.ill := Bool.or_false _
  rw [State.raise, hill]

/-- Settles O34: the builder's test for an empty histogram succeeds, and the cause it raises keeps the rest. -/
theorem lutBuildOfAnEmptyHistogramFails : Obligations.LutBuildOfAnEmptyHistogramFails :=
  fun s hzero => (exec_lutBuild_of_empty ((counts_all_zero s).2 hzero)).trans (congrArg _ (raise_emptyHistogram s))

/-! ## The rounding (R131, R9) -/

theorem roundHd_two_mul (p : Nat) {total : Nat} (ht : 0 < total) :
    roundHd (p : Nat) (2 * total : Nat) = ((p + total - 1) / (2 * total) : Nat) := by
  have hodd : (2 * p + 2 * total - 1) / 2 = p + total - 1 := by omega
  have hcast : (2 * (p : Int) + (2 * total : Nat) - 1) = ((2 * p + 2 * total - 1 : Nat) : Int) := by omega
  rw [roundHd, hcast, ← hodd, Nat.div_div_eq_div_mul]
  rfl

/-- The quotient's bounds: `2 * total` times the ideal index is the numerator, up to a remainder. -/
theorem idealIndex_bounds (c h n : Nat) {total : Nat} (ht : 0 < total) :
    2 * total * idealIndex c h n total < (2 * c + h) * n + total ∧
      (2 * c + h) * n ≤ 2 * total * idealIndex c h n total + total := by
  have hdiv := Nat.div_add_mod ((2 * c + h) * n + total - 1) (2 * total)
  have hmod := Nat.mod_lt ((2 * c + h) * n + total - 1) (Nat.mul_pos Nat.two_pos ht)
  rw [idealIndex]
  omega

/-- Settles O36: the quotient is that of `roundHd` with a factor 2 cancelled; its remainder gives the bounds. -/
theorem builderRoundsTiesDown : Obligations.BuilderRoundsTiesDown := by
  intro c h n total ht
  obtain ⟨hlower, hupper⟩ := idealIndex_bounds c h n ht
  refine ⟨(roundHd_two_mul _ ht).symm, ?_, ?_⟩ <;> rw [Nat.mul_assoc 2 (2 * total)] <;> omega

/-! ## The samples of a range of codes (R127, R128) -/

/-- The samples counted at the `n` codes from `code` on. -/
def State.samplesIn (s : State) (code n : Nat) : Nat :=
  ((List.range' code n).map fun i => (s.histAt i).toNat).sum

theorem samplesIn_one (s : State) (code : Nat) : s.samplesIn code 1 = (s.histAt code).toNat := by
  simp [State.samplesIn]

theorem samplesIn_add (s : State) (code m n : Nat) :
    s.samplesIn code (m + n) = s.samplesIn code m + s.samplesIn (code + m) n := by
  simp only [State.samplesIn, ← List.sum_append, ← List.map_append, List.range'_append_1]

theorem samplesIn_mono (s : State) (code : Nat) {m n : Nat} (h : m ≤ n) : s.samplesIn code m ≤ s.samplesIn code n := by
  obtain ⟨k, rfl⟩ := Nat.exists_eq_add_of_le h
  rw [samplesIn_add]
  exact Nat.le_add_right _ _

/-- The samples below a code and those of the code itself are the samples up to it. -/
theorem samplesIn_add_histAt (s : State) {a code : Nat} (ha : a ≤ code) :
    s.samplesIn a (code - a) + (s.histAt code).toNat = s.samplesIn a (code - a + 1) := by
  rw [samplesIn_add, samplesIn_one, Nat.add_sub_cancel' ha]

theorem samplesIn_of_uniform {s : State} {h : Word} {code n : Nat}
    (hist : ∀ i, code ≤ i → i < code + n → s.histAt i = h) : s.samplesIn code n = n * h.toNat := by
  induction n with
  | zero => rw [Nat.zero_mul]; rfl
  | succ n ih =>
    rw [samplesIn_add, samplesIn_one, ih fun i h1 h2 => hist i h1 (by omega), hist (code + n) (by omega) (by omega),
      Nat.succ_mul]

/-! ## The observed range (R127) -/

/-- `a` and `b` are the lowest and the highest code with a counter that is not 0. -/
structure State.Observes (s : State) (a b : Nat) : Prop where
  le : a ≤ b
  lt : b < 4096
  lowest : s.histAt a ≠ 0
  highest : s.histAt b ≠ 0
  outside : ∀ i, i < 4096 → (i < a ∨ b < i) → s.histAt i = 0

/-- The ideal index of `code`, counted from `a`, when the observed range is `a` to `b` (R126 step 3). -/
def State.builtIndex (s : State) (a b code : Nat) : Nat :=
  idealIndex (s.samplesIn a (code - a)) (s.histAt code).toNat (b - a + 1) (s.samplesIn a (b - a + 1))

theorem corrAt_lutBuilt (s : State) (code : Nat) :
    (lutBuilt s).corrAt code = ((buildTable s.counts).getD code 0).toInt := rfl

namespace State.Observes

variable {s : State} {a b code : Nat}

theorem lowestCode_counts (h : s.Observes a b) : lowestCode s.counts = a :=
  lowestCode_eq (h.le.trans_lt h.lt) h.lowest fun i hi => h.outside i (hi.trans (h.le.trans_lt h.lt)) (.inl hi)

theorem highestCode_counts (h : s.Observes a b) : highestCode s.counts = b :=
  highestCode_eq h.lt h.highest fun i hi hbi => h.outside i hi (.inr hbi)

theorem exec_lutBuild (h : s.Observes a b) : exec .lutBuild s = .next (lutBuilt s) :=
  exec_lutBuild_of_counts (Bool.eq_false_iff.2 fun hempty =>
    h.lowest ((counts_all_zero s).1 hempty a (h.le.trans_lt h.lt)))

/-- What the command leaves besides the table (R126, R133). -/
theorem lutBuilt_eq (h : s.Observes a b) :
    lutBuilt s =
      { s with corr := (lutBuilt s).corr, codeMin := BitVec.ofNat 16 a, codeMax := BitVec.ofNat 16 b,
               magic := 0xCA11B8ED#32, result := 0, status := { s.status with ok := true, cause := .none } } := by
  rw [← h.lowestCode_counts, ← h.highestCode_counts]
  rfl

/-! ## The walk over the observed range (R126, R129, R135) -/

theorem samplesIn_pos (h : s.Observes a b) : 0 < s.samplesIn a (b - a + 1) := by
  have hlowest : 0 < s.samplesIn a 1 := by
    rw [samplesIn_one]
    exact Nat.pos_of_ne_zero ((toNat_histAt_ne_zero s a).2 h.lowest)
  exact hlowest.trans_le (samplesIn_mono s a (Nat.le_add_left 1 _))

theorem builtIndex_le (h : s.Observes a b) (ha : a ≤ code) (hb : code ≤ b) : s.builtIndex a b code ≤ b - a + 1 := by
  refine idealIndex_le h.samplesIn_pos ?_
  rw [samplesIn_add_histAt s ha]
  exact samplesIn_mono s a (by omega)

/-- The walk's entry of a code, as the 16-bit cell the table holds. -/
theorem getD_walk_counts (h : s.Observes a b) (ha : a ≤ code) (hb : code ≤ b) :
    let inRange := (s.counts.drop a).take (b - a + 1)
    (walk a (b - a + 1) inRange.sum a 0 inRange).getD (code - a) 0 =
      BitVec.ofInt 16 ((a : Int) + s.builtIndex a b code - code) := by
  have hk : code - a < b - a + 1 := by omega
  have htake : (List.range' a (b - a + 1)).take (code - a) = List.range' a (code - a) := take_range_of_le hk.le
  have hget : ((List.range' a (b - a + 1)).map fun i => (s.histAt i).toNat).getD (code - a) 0 =
      (s.histAt code).toNat := by
    rw [List.getD_eq_getElem _ _ (by simpa using hk)]
    simp [Nat.add_sub_cancel' ha]
  dsimp only
  rw [counts_inRange s h.le h.lt, getD_walk _ _ _ _ (by simpa using hk), ← List.map_take, htake, hget, Nat.zero_add,
    Nat.add_sub_cancel' ha]
  rfl

/-! ## The table (R126, R132) -/

theorem getD_buildTable (h : s.Observes a b) (hcode : code < 4096) :
    (buildTable s.counts).getD code 0 =
      if code < a then 0 else BitVec.ofInt 16 ((a : Int) + s.builtIndex a b (min code b) - (min code b : Nat)) := by
  unfold buildTable
  rw [getD_tabulate _ _ _ _ hcode, h.lowestCode_counts, h.highestCode_counts]
  split_ifs with hbelow hin
  · rfl
  · rw [min_eq_left hin]
    exact h.getD_walk_counts (Nat.le_of_not_lt hbelow) hin
  · rw [min_eq_right (Nat.le_of_not_le hin)]
    exact h.getD_walk_counts h.le le_rfl

theorem corrAt_lutBuilt_inside (h : s.Observes a b) (ha : a ≤ code) (hb : code ≤ b) :
    (lutBuilt s).corrAt code = (a : Int) + s.builtIndex a b code - code := by
  have hindex := h.builtIndex_le ha hb
  have hlt := h.lt
  rw [corrAt_lutBuilt, h.getD_buildTable (by omega), if_neg (by omega), min_eq_left hb,
    toInt_ofInt16 (by omega) (by omega)]

theorem corrAt_lutBuilt_below (h : s.Observes a b) (ha : code < a) : (lutBuilt s).corrAt code = 0 := by
  rw [corrAt_lutBuilt, h.getD_buildTable (ha.trans (h.le.trans_lt h.lt)), if_pos ha]
  rfl

theorem corrAt_lutBuilt_above (h : s.Observes a b) (hb : b < code) (hcode : code < 4096) :
    (lutBuilt s).corrAt code = (lutBuilt s).corrAt b := by
  have hle := h.le
  rw [corrAt_lutBuilt, corrAt_lutBuilt, h.getD_buildTable hcode, h.getD_buildTable h.lt, if_neg (by omega),
    if_neg (by omega), min_eq_right hb.le, min_self]

end State.Observes

/-- Settles O35: the observed range gives the two codes, and the walk the entries. -/
theorem lutBuildEqualisesTheHistogram : Obligations.LutBuildEqualisesTheHistogram := by
  intro s a b hab hb hlowest hhighest houtside
  have h : s.Observes a b := ⟨hab, hb, hlowest, hhighest, houtside⟩
  exact ⟨lutBuilt s, h.exec_lutBuild, h.lutBuilt_eq, fun _ => h.corrAt_lutBuilt_inside,
    fun _ => h.corrAt_lutBuilt_below, fun _ => h.corrAt_lutBuilt_above⟩

/-- A later code has passed at least the samples of an earlier one, and so has an index no smaller. -/
theorem builtIndex_mono (s : State) {a code code' : Nat} (b : Nat) (ha : a ≤ code) (hle : code ≤ code') :
    s.builtIndex a b code ≤ s.builtIndex a b code' := by
  rcases hle.eq_or_lt with rfl | hlt
  · exact le_rfl
  · have hpassed : s.samplesIn a (code - a) + (s.histAt code).toNat ≤ s.samplesIn a (code' - a) := by
      rw [samplesIn_add_histAt s ha]
      exact samplesIn_mono s a (by omega)
    exact idealIndex_mono _ _ (by omega)

/-- Settles O38: the index of a code lies between 0 and the number of codes in the range, and never decreases. -/
theorem builtCodesNeverGoBackwards : Obligations.BuiltCodesNeverGoBackwards := by
  intro s t a b hab hb hlowest hhighest houtside ht
  have h : s.Observes a b := ⟨hab, hb, hlowest, hhighest, houtside⟩
  obtain rfl : lutBuilt s = t := Host.Outcome.next.inj (h.exec_lutBuild.symm.trans ht)
  refine ⟨fun code ha hb => ?_, fun code code' ha hle hb => ?_⟩
  · have hindex := h.builtIndex_le ha hb
    rw [h.corrAt_lutBuilt_inside ha hb]
    omega
  · have hmono := builtIndex_mono s b ha hle
    rw [h.corrAt_lutBuilt_inside ha (hle.trans hb), h.corrAt_lutBuilt_inside (ha.trans hle) hb]
    omega

/-! ## A uniform histogram (R136) -/

/-- With `h` samples at each of `n` codes the ideal index of a code is the number of the codes below. -/
theorem idealIndex_uniform {h n : Nat} (k : Nat) (hh : 0 < h) (hn : 0 < n) : idealIndex (k * h) h n (n * h) = k := by
  have hpos : 0 < n * h := Nat.mul_pos hn hh
  have hnum : (2 * (k * h) + h) * n + n * h - 1 = 2 * (n * h) * k + (2 * (n * h) - 1) := by
    rw [show (2 * (k * h) + h) * n + n * h = 2 * (n * h) * k + 2 * (n * h) by ring]
    omega
  rw [idealIndex, hnum, Nat.mul_add_div (by omega), Nat.div_eq_of_lt (by omega), Nat.add_zero]

/-- Settles O37: the whole range is observed, and each code is its own ideal index. -/
theorem uniformHistogramNeedsNoCorrection : Obligations.UniformHistogramNeedsNoCorrection := by
  intro s h hne huniform
  have hobs : s.Observes 0 4095 :=
    { le := by omega, lt := by omega
      lowest := huniform 0 (by omega) ▸ hne
      highest := huniform 4095 (by omega) ▸ hne
      outside := fun i hi hout => absurd hout (by omega) }
  have hleft := hobs.lutBuilt_eq
  refine ⟨lutBuilt s, hobs.exec_lutBuild, congrArg State.codeMin hleft, congrArg State.codeMax hleft,
    fun code hcode => ?_⟩
  have hpos : 0 < h.toNat := Nat.pos_of_ne_zero fun hzero => hne (BitVec.eq_of_toNat_eq hzero)
  have hindex : s.builtIndex 0 4095 code = code := by
    rw [State.builtIndex, samplesIn_of_uniform fun i _ hi => huniform i (by omega),
      samplesIn_of_uniform fun i _ hi => huniform i (by omega), huniform code hcode]
    exact idealIndex_uniform code hpos (by omega)
  rw [hobs.corrAt_lutBuilt_inside (Nat.zero_le _) (by omega), hindex]
  omega

end Sys2Proof.Machine
end

section
/-! The Boundary Smoother: the windows' independence, the fixed anchors, and the rounding. -/

namespace Sys2Proof.Machine

/-! ## The rounding (R143, R9) -/

theorem interpolate_eq_roundHd (aL aR : Int) (k : Nat) :
    interpolate aL aR k = aL + roundHd ((k : Int) * (aR - aL)) 32 := by
  unfold interpolate roundHd
  generalize (k : Int) * (aR - aL) = x
  omega

/-- Settles O41: `roundHd` at 32 is written out, and the value lies between the anchors whichever is the lower. -/
theorem interpolationRoundsBetweenTheAnchors : Obligations.InterpolationRoundsBetweenTheAnchors := by
  intro aL aR k h1 h2
  have hround := interpolate_eq_roundHd aL aR k
  obtain ⟨hrise, hfall⟩ := interpolate_between aL aR h1 h2
  refine ⟨hround, ?_, rfl, ?_⟩
  · rw [hround, roundHd, mul_assoc 2, add_sub_assoc]
    rfl
  · rcases le_total aL aR with hle | hle
    · rw [min_eq_left hle, max_eq_right hle]
      exact hrise hle
    · rw [min_eq_right hle, max_eq_left hle]
      exact hfall hle

/-! ## The independence of the boundaries (R144, R145) -/

/-- The entries between a boundary's anchors depend on the anchors alone. -/
theorem smoothBoundary_congr {t u : Vector Half 4096} {b i : Nat} (hi : i < 4096) (hin : b - 16 < i ∧ i < b + 16)
    (hleft : u.getD (b - 16) 0 = t.getD (b - 16) 0) (hright : u.getD (b + 16) 0 = t.getD (b + 16) 0) :
    (smoothBoundary u b).getD i 0 = (smoothBoundary t b).getD i 0 := by
  rw [getD_smoothBoundary _ _ hi, getD_smoothBoundary _ _ hi, if_pos hin, if_pos hin]
  simp only [entryAt, hleft, hright]

theorem foldl_smoothBoundary_outside {bs : List Nat} (t : Vector Half 4096) {i : Nat} (hi : i < 4096)
    (hout : ∀ b ∈ bs, i ≤ b - 16 ∨ b + 16 ≤ i) : (bs.foldl smoothBoundary t).getD i 0 = t.getD i 0 := by
  induction bs generalizing t with
  | nil => rfl
  | cons b bs ih =>
    rw [List.forall_mem_cons] at hout
    rw [List.foldl_cons, ih _ hout.2, smoothBoundary_outside t hi hout.1]

/-- With the boundaries' windows apart, each is smoothed as if it were the only one. -/
theorem foldl_smoothBoundary_inside {bs : List Nat} (t : Vector Half 4096) {b i : Nat}
    (hapart : bs.Pairwise fun b b' => b + 32 ≤ b') (hb : b ∈ bs) (hlt : b + 16 < 4096)
    (hin : b - 16 < i ∧ i < b + 16) : (bs.foldl smoothBoundary t).getD i 0 = (smoothBoundary t b).getD i 0 := by
  induction bs generalizing t with
  | nil => cases hb
  | cons c bs ih =>
    obtain ⟨hc, hapart⟩ := List.pairwise_cons.1 hapart
    rw [List.foldl_cons]
    rcases List.mem_cons.1 hb with rfl | hb
    · exact foldl_smoothBoundary_outside _ (by omega) fun b' hb' => .inl (by have := hc b' hb'; omega)
    · have hcb := hc b hb
      rw [ih _ hapart hb]
      exact smoothBoundary_congr (by omega) hin (smoothBoundary_outside t (by omega) (.inr (by omega)))
        (smoothBoundary_outside t hlt (.inr (by omega)))

theorem smoothTable_outside (t : Vector Half 4096) {i : Nat} (hi : i < 4096)
    (hout : ∀ b ∈ Config.boundaries, i ≤ b - 16 ∨ b + 16 ≤ i) : (smoothTable t).getD i 0 = t.getD i 0 :=
  foldl_smoothBoundary_outside t hi hout

theorem boundaries_in_table : ∀ b ∈ Config.boundaries, 16 ≤ b ∧ b + 16 < 4096 := by decide

theorem smoothTable_inside (t : Vector Half 4096) {b i : Nat} (hb : b ∈ Config.boundaries)
    (hin : b - 16 < i ∧ i < b + 16) : (smoothTable t).getD i 0 = (smoothBoundary t b).getD i 0 :=
  foldl_smoothBoundary_inside t (by decide) hb (boundaries_in_table b hb).2 hin

/-! ## The entries of the smoothed table (R141, R142) -/

/-- Settles O39: each boundary is smoothed as if it were the only one, and the entries outside stay. -/
theorem lutSmoothInterpolatesAcrossTheBoundaries : Obligations.LutSmoothInterpolatesAcrossTheBoundaries := by
  refine fun s => ⟨_, exec_lutSmooth s, rfl, fun b hb k h1 h2 => ?_, fun i hi hout => ?_⟩ <;>
    simp only [State.corrAt, complete_corr]
  · obtain ⟨hlow, hhigh⟩ := boundaries_in_table b hb
    have hinside := smoothTable_inside s.corr hb (i := b - 16 + k) (by omega)
    exact (congrArg BitVec.toInt hinside).trans (smoothBoundary_inside s.corr hlow hhigh h1 h2)
  · exact congrArg BitVec.toInt (smoothTable_outside s.corr hi hout)

/-! ## Idempotence (R146) -/

/-- No boundary's window holds an anchor, its own or another's. -/
theorem anchors_outside : ∀ b ∈ Config.boundaries, ∀ b' ∈ Config.boundaries,
    (b - 16 ≤ b' - 16 ∨ b' + 16 ≤ b - 16) ∧ (b + 16 ≤ b' - 16 ∨ b' + 16 ≤ b + 16) := by decide

theorem smoothTable_smoothTable (t : Vector Half 4096) : smoothTable (smoothTable t) = smoothTable t := by
  refine vector_ext_getD 0 fun i hi => ?_
  by_cases hout : ∀ b ∈ Config.boundaries, i ≤ b - 16 ∨ b + 16 ≤ i
  · exact smoothTable_outside _ hi hout
  · push Not at hout
    obtain ⟨b, hb, hin⟩ := hout
    obtain ⟨-, hhigh⟩ := boundaries_in_table b hb
    rw [smoothTable_inside _ hb hin, smoothTable_inside _ hb hin]
    exact smoothBoundary_congr hi hin (smoothTable_outside t (by omega) fun b' hb' => (anchors_outside b hb b' hb').1)
      (smoothTable_outside t hhigh fun b' hb' => (anchors_outside b hb b' hb').2)

/-- Settles O40: the second run writes the table the first run left. -/
theorem smoothingIsIdempotent : Obligations.SmoothingIsIdempotent := by
  refine fun s => ⟨_, exec_lutSmooth s, ?_⟩
  rw [exec_lutSmooth, complete_corr, smoothTable_smoothTable]
  generalize smoothTable s.corr = smoothed
  rfl

end Sys2Proof.Machine
end

section
/-! The Runtime Corrector: the clamped sum, the free code without a calibration, and monotonicity over a built table. -/

namespace Sys2Proof.Machine

/-! ## The clamp (R9) -/

theorem clamp_between (v : Int) {lo hi : Int} (h : lo ≤ hi) : lo ≤ clamp v lo hi ∧ clamp v lo hi ≤ hi := by
  unfold clamp
  split_ifs <;> omega

theorem clamp_mono {v w lo hi : Int} (h : lo ≤ hi) (hvw : v ≤ w) : clamp v lo hi ≤ clamp w lo hi := by
  unfold clamp
  split_ifs <;> omega

/-! ## The corrected code (R150) -/

/-- The corrected code fits the result word, so the word's value is the clamped sum. -/
theorem toNat_correctedCode (raw : Level) (s : State) :
    ((correctedCode raw s).toNat : Int) = clamp ((raw.toNat : Int) + s.corrAt raw.toNat) 0 4095 := by
  obtain ⟨hlow, hhigh⟩ := clamp_between ((raw.toNat : Int) + s.corrAt raw.toNat) (lo := 0) (hi := 4095) (by decide)
  rw [correctedCode, BitVec.toNat_ofInt, Int.toNat_of_nonneg (Int.emod_nonneg _ (by decide))]
  exact Int.emod_eq_of_lt hlow (hhigh.trans_lt (by decide))

theorem correctedCode_le (raw : Level) (s : State) : (correctedCode raw s).toNat ≤ 4095 := by
  have hhigh := (clamp_between ((raw.toNat : Int) + s.corrAt raw.toNat) (lo := 0) (hi := 4095) (by decide)).2
  rw [← toNat_correctedCode] at hhigh
  exact_mod_cast hhigh

/-- Corrected codes keep the order of the sums they clamp. -/
theorem correctedCode_mono {s : State} {a b : Level}
    (h : (a.toNat : Int) + s.corrAt a.toNat ≤ (b.toNat : Int) + s.corrAt b.toNat) :
    (correctedCode a s).toNat ≤ (correctedCode b s).toNat := by
  have hclamp := clamp_mono (lo := 0) (hi := 4095) (by decide) h
  rw [← toNat_correctedCode, ← toNat_correctedCode] at hclamp
  exact_mod_cast hclamp

theorem valid_of_magic {s : State} (h : s.magic = 0xCA11B8ED#32) : s.valid = true := by
  rw [valid_eq, decide_eq_true h]

/-- Settles O42: the command completes with the corrected code, whose value is the clamped sum. -/
theorem lutCorrectAddsAndClamps : Obligations.LutCorrectAddsAndClamps := by
  intro raw s hmagic
  exact ⟨_, exec_lutCorrect_of_valid (valid_of_magic hmagic) raw, rfl, toNat_correctedCode raw s⟩

/-! ## The free code without a calibration (R151) -/

theorem uncalibratedResult_result_le (s : State) : (uncalibratedResult s).result.toNat ≤ 4095 := by
  rw [uncalibratedResult, complete_result, BitVec.toNat_setWidth_of_le (by decide)]
  exact Nat.le_of_lt_succ (BitVec.isLt _)

/-- Settles O43: the free code is a level, and only its index moves besides `RESULT` and `STATUS`. -/
theorem lutCorrectBeforeCalibrationIsInRange : Obligations.LutCorrectBeforeCalibrationIsInRange := by
  intro raw s hmagic
  have hinvalid : s.valid = false := by rw [valid_eq, decide_eq_false hmagic]
  exact ⟨_, exec_lutCorrect_of_invalid hinvalid raw, rfl, uncalibratedResult_result_le s⟩

/-! ## Monotonicity over a built table (R152) -/

/-- A histogram with a count has a lowest and a highest observed code. -/
theorem exists_observes {s : State} (h : ∃ i, i < 4096 ∧ s.histAt i ≠ 0) : ∃ a b, s.Observes a b := by
  obtain ⟨i, hi, hne⟩ := h
  have hcount : ∃ j, s.histAt j ≠ 0 := ⟨i, hne⟩
  have hlow : Nat.find hcount ≤ i := Nat.find_min' hcount hne
  have hhigh : i ≤ Nat.findGreatest (s.histAt · ≠ 0) 4095 := Nat.le_findGreatest (by omega) hne
  refine ⟨_, _, hlow.trans hhigh, Nat.lt_succ_of_le (Nat.findGreatest_le _), Nat.find_spec hcount,
    Nat.findGreatest_spec (P := (s.histAt · ≠ 0)) (by omega) hne, fun j hj hout => ?_⟩
  rcases hout with hbelow | habove
  · exact not_not.1 (Nat.find_min hcount hbelow)
  · exact not_not.1 (Nat.findGreatest_is_greatest habove (by omega))

/-- From the lowest observed code on, the entry is that of the nearest code in the range (R126, R132). -/
theorem State.Observes.corrAt_lutBuilt_from {s : State} {a b code : Nat} (h : s.Observes a b) (ha : a ≤ code)
    (hcode : code < 4096) :
    (lutBuilt s).corrAt code = (a : Int) + s.builtIndex a b (min code b) - (min code b : Nat) := by
  rcases le_or_gt code b with hb | hb
  · rw [min_eq_left hb, h.corrAt_lutBuilt_inside ha hb]
  · rw [min_eq_right hb.le, h.corrAt_lutBuilt_above hb hcode, h.corrAt_lutBuilt_inside h.le le_rfl]

/-- Over the whole range of raw codes the linearised code never decreases: it is the raw code below `a`, at least `a`
from there on, and follows the ideal index, which no longer moves above `b`. -/
theorem State.Observes.linearised_mono {s : State} {a b code code' : Nat} (h : s.Observes a b) (hle : code ≤ code')
    (hcode' : code' < 4096) :
    (code : Int) + (lutBuilt s).corrAt code ≤ (code' : Int) + (lutBuilt s).corrAt code' := by
  rcases lt_or_ge code' a with ha' | ha'
  · rw [h.corrAt_lutBuilt_below ha', h.corrAt_lutBuilt_below (hle.trans_lt ha')]
    omega
  · rw [h.corrAt_lutBuilt_from ha' hcode']
    rcases lt_or_ge code a with ha | ha
    · rw [h.corrAt_lutBuilt_below ha]
      omega
    · have hindex := builtIndex_mono s b (le_min ha h.le) (min_le_min_right b hle)
      rw [h.corrAt_lutBuilt_from ha (by omega)]
      omega

/-- Settles O44: the built table is a valid calibration, and the clamp keeps the order of the linearised codes. -/
theorem correctionOfABuiltTableIsMonotone : Obligations.CorrectionOfABuiltTableIsMonotone := by
  intro s t u v a b hcount hbuild hle hcorrectA hcorrectB
  obtain ⟨_, _, hobs⟩ := exists_observes hcount
  obtain rfl := Host.Outcome.next.inj (hobs.exec_lutBuild.symm.trans hbuild)
  have hvalid := valid_of_magic (lutBuilt_magic s)
  obtain rfl := Host.Outcome.next.inj ((exec_lutCorrect_of_valid hvalid a).symm.trans hcorrectA)
  obtain rfl := Host.Outcome.next.inj ((exec_lutCorrect_of_valid hvalid b).symm.trans hcorrectB)
  rw [complete_result, complete_result]
  exact ⟨correctedCode_mono (hobs.linearised_mono hle b.isLt), correctedCode_le b _⟩

end Sys2Proof.Machine
end

section
/-! The Calibration Record: the bytes of the layout, the validity test of a load, and the round trip through `RECBUF`. -/

namespace Sys2Proof.Machine

/-! ## A record in `RECBUF` (R155) -/

/-- `RECBUF` of `t` holds the byte image of the calibration of `s`. -/
def State.HoldsRecordOf (t s : State) : Prop := ∀ a, a < 8200 → t.recAt a = (recordBytes s).getD a 0

/-- The bytes of `RECBUF` are those of its memory since the last reset. -/
theorem recAt_congr {s t : State} (hbuf : t.recbuf = s.recbuf) (hresets : t.env.resets = s.env.resets) (a : Nat) :
    t.recAt a = s.recAt a := by
  unfold State.recAt
  rw [hbuf, hresets]

/-- The byte image is made of the calibration alone. -/
theorem recordBytes_congr {s t : State} (hmagic : t.magic = s.magic) (hcorr : t.corr = s.corr)
    (hmin : t.codeMin = s.codeMin) (hmax : t.codeMax = s.codeMax) : recordBytes t = recordBytes s := by
  unfold recordBytes
  rw [hmagic, hcorr, hmin, hmax]

namespace State.HoldsRecordOf

variable {s t : State}

theorem congr {u : State} (h : t.HoldsRecordOf s) (hbuf : u.recbuf = t.recbuf) (hresets : u.env.resets = t.env.resets) :
    u.HoldsRecordOf s := fun a ha => (recAt_congr hbuf hresets a).trans (h a ha)

theorem recAt_magic (h : t.HoldsRecordOf s) {k : Nat} (hk : k < 4) : t.recAt k = s.magic.extractLsb' (8 * k) 8 := by
  rw [h k (by omega), getD_recordBytes_magic s hk, getD_le32 _ hk]

theorem recAt_corr (h : t.HoldsRecordOf s) {i : Nat} (hi : i < 4096) :
    t.recAt (4 + 2 * i) = (s.corr.getD i 0).extractLsb' 0 8 ∧
      t.recAt (5 + 2 * i) = (s.corr.getD i 0).extractLsb' 8 8 := by
  obtain ⟨hlow, hhigh⟩ := getD_flatMap_le16 s.corr.toList (i := i) (by rw [length_corr]; exact hi)
  rw [getD_corr] at hlow hhigh
  rw [show 5 + 2 * i = 4 + (2 * i + 1) by omega, h _ (by omega), h _ (by omega), getD_recordBytes_corr s (by omega),
    getD_recordBytes_corr s (by omega)]
  exact ⟨hlow, hhigh⟩

theorem recAt_range (h : t.HoldsRecordOf s) {k : Nat} (hk : k < 4) :
    t.recAt (8196 + k) = (le16 s.codeMin ++ le16 s.codeMax).getD k 0 :=
  (h _ (by omega)).trans (getD_recordBytes_range s hk)

theorem recWord_magic (h : t.HoldsRecordOf s) : t.recWord 0 = s.magic := by
  unfold State.recWord
  rw [h.recAt_magic (by omega), h.recAt_magic (by omega), h.recAt_magic (by omega), h.recAt_magic (by omega)]
  exact ofLe32_bytes s.magic

theorem recHalf_corr (h : t.HoldsRecordOf s) {i : Nat} (hi : i < 4096) : t.recHalf (4 + 2 * i) = s.corr.getD i 0 := by
  obtain ⟨hlow, hhigh⟩ := h.recAt_corr hi
  rw [State.recHalf, show 4 + 2 * i + 1 = 5 + 2 * i by omega, hlow, hhigh, ofLe16_bytes]

theorem recHalf_codeMin (h : t.HoldsRecordOf s) : t.recHalf 8196 = s.codeMin := by
  rw [State.recHalf, h.recAt_range (k := 0) (by omega), h.recAt_range (k := 1) (by omega)]
  exact ofLe16_bytes s.codeMin

theorem recHalf_codeMax (h : t.HoldsRecordOf s) : t.recHalf 8198 = s.codeMax := by
  rw [State.recHalf, h.recAt_range (k := 2) (by omega), h.recAt_range (k := 3) (by omega)]
  exact ofLe16_bytes s.codeMax

end State.HoldsRecordOf

/-! ## `REC.STORE` (R156) -/

/-- What `REC.STORE` makes of each byte of `RECBUF`. -/
theorem recAt_of_exec_recStore {s t : State} (hwf : Memory.wf s.env.resets s.recbuf) (h : exec .recStore s = .next t)
    (a : Nat) : t.recAt a = if a < 8200 then (recordBytes s).getD a 0 else s.recAt a := by
  obtain rfl := Host.Outcome.next.inj ((exec_recStore s).symm.trans h)
  refine (recAt_recStore s 0 a (recordBytes s) hwf.1).trans ?_
  rw [length_recordBytes, Nat.zero_add, Nat.sub_zero]
  exact if_congr (and_iff_right a.zero_le) rfl rfl

theorem holdsRecordOf_of_exec_recStore {s t : State} (hwf : Memory.wf s.env.resets s.recbuf)
    (h : exec .recStore s = .next t) : t.HoldsRecordOf s := fun a ha =>
  (recAt_of_exec_recStore hwf h a).trans (if_pos ha)

/-- `REC.STORE` keeps the canonical form of the record buffer's memory. -/
theorem wf_of_exec_recStore {s t : State} (hwf : Memory.wf s.env.resets s.recbuf) (h : exec .recStore s = .next t) :
    Memory.wf t.env.resets t.recbuf := by
  obtain rfl := Host.Outcome.next.inj ((exec_recStore s).symm.trans h)
  exact Memory.wf_store _ _ _ 0 (by rw [length_recordBytes]) hwf

/-- Settles O45: `RECBUF` then holds the record, whose bytes are those of the layout. -/
theorem recStoreWritesTheLayout : Obligations.RecStoreWritesTheLayout := by
  intro s hwf
  refine ⟨_, exec_recStore s, rfl, ?_⟩
  have hrec := holdsRecordOf_of_exec_recStore hwf (exec_recStore s)
  refine ⟨hrec.recAt_magic (k := 0) (by omega), hrec.recAt_magic (k := 1) (by omega),
    hrec.recAt_magic (k := 2) (by omega), hrec.recAt_magic (k := 3) (by omega), fun i hi => hrec.recAt_corr hi,
    hrec.recAt_range (k := 0) (by omega), hrec.recAt_range (k := 1) (by omega), hrec.recAt_range (k := 2) (by omega),
    hrec.recAt_range (k := 3) (by omega), fun a ha => ?_⟩
  exact (recAt_of_exec_recStore hwf (exec_recStore s) a).trans (if_neg (by omega))

/-! ## `REC.LOAD` (R157, R158) -/

/-- The validity test of a load, in terms of the record's bytes. -/
theorem loadValid_iff {size : Half} {s : State} :
    loadValid size s = true ↔ size.toNat = 8200 ∧
      (s.recAt 0).toNat + 256 * (s.recAt 1).toNat + 65536 * (s.recAt 2).toNat + 16777216 * (s.recAt 3).toNat
        = 0xCA11B8ED := by
  rw [loadValid, Bool.and_eq_true, beq_iff_eq, beq_iff_eq, ← BitVec.toNat_inj, toNat_recWord]
  rfl

theorem recHalf_eq_ofNat (s : State) (a : Nat) :
    s.recHalf a = BitVec.ofNat 16 ((s.recAt a).toNat + 256 * (s.recAt (a + 1)).toNat) := by
  rw [← toNat_recHalf, BitVec.ofNat_toNat, BitVec.setWidth_eq]

/-- Settles O46: each loaded field is the half-word at its offset. -/
theorem recLoadOfAValidRecordLoadsIt : Obligations.RecLoadOfAValidRecordLoadsIt := by
  intro size s hsize hmagic
  refine ⟨_, exec_recLoad_of_valid (loadValid_iff.mpr ⟨hsize, hmagic⟩), rfl, fun i hi => ?_, ?_, ?_⟩
  · rw [State.corrAt, entryAt, recLoaded_corr, getD_tabulate _ _ _ _ hi, recHalf_eq_ofNat,
      show 4 + 2 * i + 1 = 5 + 2 * i by omega]
  · rw [recLoaded_codeMin, toNat_recHalf]
  · rw [recLoaded_codeMax, toNat_recHalf]

/-- Every cause but `ILLEGAL_COMMAND` leaves `ILL` alone (R172, R179). -/
theorem raise_of_ne_illegalCommand {c : Cause} (h : c ≠ .illegalCommand) (s : State) :
    s.raise c = { s with result := 0, status := { s.status with ok := false, cause := c } } := by
  rw [State.raise, beq_eq_false_iff_ne.mpr h, Bool.or_false]

/-- Settles O47: the test decides between a load and `raise`, which leaves `ILL` alone. -/
theorem recLoadOfAnInvalidRecordChangesNothing : Obligations.RecLoadOfAnInvalidRecordChangesNothing := by
  intro size s valid
  cases hv : loadValid size s with
  | true =>
    have hvalid : valid := loadValid_iff.mp hv
    exact ⟨⟨_, exec_recLoad_of_valid hv, iff_of_true (by rw [recLoaded_status]) hvalid⟩, fun hn => absurd hvalid hn⟩
  | false =>
    have hn : ¬ valid := fun h => Bool.false_ne_true (hv.symm.trans (loadValid_iff.mpr h))
    refine ⟨⟨_, exec_recLoad_of_invalid hv, iff_of_false Bool.false_ne_true hn⟩, fun _ => ?_⟩
    rw [exec_recLoad_of_invalid hv, raise_of_ne_illegalCommand (by decide)]

/-! ## The round trip (R159) -/

/-- Loading a held record restores the calibration it was made of. -/
theorem recLoaded_of_holdsRecordOf {s u : State} (h : u.HoldsRecordOf s) :
    (recLoaded u).corr = s.corr ∧ (recLoaded u).codeMin = s.codeMin ∧ (recLoaded u).codeMax = s.codeMax := by
  rw [recLoaded_corr, recLoaded_codeMin, recLoaded_codeMax]
  refine ⟨vector_ext_getD 0 fun i hi => ?_, h.recHalf_codeMin, h.recHalf_codeMax⟩
  rw [getD_tabulate _ _ _ _ hi, h.recHalf_corr hi]

/-- Settles O48: the untouched `RECBUF` still holds the record, so a load restores what its bytes are made of. -/
theorem storeThenLoadRestoresTheCalibration : Obligations.StoreThenLoadRestoresTheCalibration := by
  intro s t u hwf hmagic hstore hbuf hresets
  have ht := holdsRecordOf_of_exec_recStore hwf hstore
  have hu := ht.congr hbuf hresets
  have hvalid : loadValid 8200#16 u = true := by
    rw [loadValid, hu.recWord_magic, hmagic]
    rfl
  have hmagic' : (recLoaded u).magic = s.magic := (recLoaded_magic u).trans hmagic.symm
  obtain ⟨hcorr, hmin, hmax⟩ := recLoaded_of_holdsRecordOf hu
  have hwf' : Memory.wf (recLoaded u).env.resets (recLoaded u).recbuf := by
    rw [recLoaded_env, recLoaded_recbuf, hbuf, hresets]
    exact wf_of_exec_recStore hwf hstore
  have hw := holdsRecordOf_of_exec_recStore hwf' (exec_recStore (recLoaded u))
  refine ⟨_, _, exec_recLoad_of_valid hvalid, exec_recStore _, hcorr, hmin, hmax, hmagic', fun a ha => ?_⟩
  rw [hw a ha, ht a ha, recordBytes_congr hmagic' hcorr hmin hmax]

end Sys2Proof.Machine
end

section
/-! The idle engine: its steps are serializer turns, which together take as many serializer steps as one likes, so that
the queue drains (R187, R89). -/

namespace Sys2Proof.Machine

/-! ## The engine left to itself (R187) -/

theorem step_of_idle {s : State} (hs : s.seq = .idle) (hh : s.env.host = []) : step s = .next (serializerTurn s) := by
  rw [step_of_none hh, engineTurn_of_idle hs]

/-- An idle engine stays idle, so with no access to come the machine's run is a run of serializer turns. -/
theorem core_run_of_idle (k : Nat) {s : State} (hs : s.seq = .idle) (hh : s.env.host = []) :
    core.run k s = .next (times serializerTurn k s) := by
  induction k generalizing s with
  | zero => rfl
  | succ k ih =>
    rw [core_run_succ k (step_of_idle hs hh)]
    exact ih hs hh

/-! ## Weak fairness (R89) -/

theorem times_succ_last (f : State → State) (n : Nat) (s : State) : times f (n + 1) s = f (times f n s) := by
  induction n generalizing s with
  | zero => rfl
  | succ n ih => exact ih (f s)

/-- With the environment's schedule used up, a turn in phase with its steps takes at least one. -/
theorem turnLength_pos_of_phase {e : Env} {k : Nat} (hsched : e.schedule = []) (hphase : turnPhase e.turns = (k, 0)) :
    0 < e.turnLength := by
  simp only [Env.turnLength, hsched, freeTurnLength_of_phase hphase]
  omega

/-- However many turns have passed, one with a step is still to come: the schedule runs out, and then the finite wait
of the current phase does. -/
theorem exists_turnLength_pos (n : Nat) (s : State) :
    ∃ m, n ≤ m ∧ 0 < (times serializerTurn m s).env.turnLength := by
  rcases hphase : turnPhase (s.env.turns + (s.env.schedule.length + n)) with ⟨k, wait⟩
  refine ⟨s.env.schedule.length + n + wait, by omega, turnLength_pos_of_phase (k := k) ?_ ?_⟩ <;>
    rw [times_serializerTurn_env]
  · exact List.drop_eq_nil_of_le (by omega)
  · exact (congrArg turnPhase (Nat.add_assoc ..).symm).trans (turnPhase_add hphase)

/-! ## The steps of the turns together -/

/-- How many serializer steps the next `m` serializer turns take together. -/
def turnSteps (s : State) : Nat → Nat
  | 0 => 0
  | m + 1 => turnSteps s m + (times serializerTurn m s).env.turnLength

theorem times_serializerTurn_output (m : Nat) (s : State) :
    (times serializerTurn m s).output = Output.run (turnSteps s m) s.output := by
  induction m with
  | zero => rfl
  | succ m ih => rw [times_succ_last, serializerTurn_output, ih, turnSteps, run_add]

theorem turnSteps_mono (s : State) : Monotone (turnSteps s) := monotone_nat_of_le_succ fun _ => Nat.le_add_right _ _

/-- Enough turns take any number of steps. -/
theorem exists_le_turnSteps (n : Nat) (s : State) : ∃ m, n ≤ turnSteps s m := by
  induction n with
  | zero => exact ⟨0, Nat.zero_le _⟩
  | succ n ih =>
    obtain ⟨m, hm⟩ := ih
    obtain ⟨busy, hle, hpos⟩ := exists_turnLength_pos m s
    exact ⟨busy + 1, Nat.add_le_add (hm.trans (turnSteps_mono s hle)) hpos⟩

/-- Once drained the output starves, so more steps leave it drained. -/
theorem run_drained_of_le {o : Output} {k : Nat} (h : o.srcnt + 33 * o.q.length ≤ k) :
    (Output.run k o).srcnt = 0 ∧ (Output.run k o).q = [] := by
  obtain ⟨hc, hq⟩ := run_drained o
  obtain ⟨more, rfl⟩ := Nat.exists_eq_add_of_le h
  rw [run_add, run_starved more hc hq]
  exact ⟨hc, hq⟩

/-- Settles O11: an idle step is a serializer turn; the turns together take the steps that drain the output. -/
theorem idleEngineOnlyDrainsTheQueue : Obligations.IdleEngineOnlyDrainsTheQueue := by
  refine ⟨fun s hs hh => ⟨serializerTurn s, step_of_idle hs hh, rfl, stream_run _ _⟩, fun s n => ?_, fun s hs hh => ?_⟩
  · obtain ⟨m, hle, hpos⟩ := exists_turnLength_pos n s
    exact ⟨m, hle, by rw [times_succ_last, serializerTurn_output], hpos⟩
  · obtain ⟨k, hk⟩ := exists_le_turnSteps (s.output.srcnt + 33 * s.output.q.length) s
    have hout := times_serializerTurn_output k s
    obtain ⟨hc, hq⟩ := run_drained_of_le hk
    rw [← hout] at hc hq
    refine ⟨k, times serializerTurn k s, core_run_of_idle k hs hh, ?_, hq, hc, ?_⟩
    · exact (times_serializerTurn_frame k s).trans (by rw [times_serializerTurn_env])
    · rw [← stream_of_drained hc hq, hout, stream_run]

end Sys2Proof.Machine
end

section
/-! Reset and the command step: what the reset leaves, what a step runs and where it leaves the sequencer, and that
only the reset makes the calibration invalid. -/

namespace Sys2Proof.Machine

/-! ## The reset (R195, R196) -/

/-- Settles O12: the tables are replicated zeros, and the other elements are the values written out. -/
theorem resetStateIsTheTableOfR196 : Obligations.ResetStateIsTheTableOfR196 := by
  have hhist : ∀ i, i < 4096 → State.reset.histAt i = 0 := fun i hi => getD_replicate 4096 0 i 0 hi
  have hcorr : ∀ i, i < 4096 → State.reset.corrAt i = 0 := fun i hi => by
    show ((Vector.replicate 4096 (0 : Half)).getD i 0).toInt = 0
    rw [getD_replicate 4096 0 i 0 hi]
    rfl
  have hstatus : State.reset.statusWord = 0x00000008#32 := by decide
  exact ⟨rfl, rfl, rfl, rfl, rfl, hhist, hcorr, rfl, rfl, rfl, rfl, rfl, hstatus, rfl, rfl, rfl, rfl⟩

/-- Settles O13: the reset event is the whole step, whatever is in flight. -/
theorem resetEventRestoresTheResetState : Obligations.ResetEventRestoresTheResetState :=
  fun s rest hh => ⟨resetEvent rest s, step_of_reset hh, rfl, rfl⟩

theorem step_of_resetNext {s : State} (hr : s.resetNext = true) : ∃ rest, step s = .next (resetEvent rest s) := by
  unfold State.resetNext at hr
  split at hr
  · exact ⟨_, step_of_reset ‹_›⟩
  · cases hr

/-! ## The command a step runs (R48, R60) -/

theorem step_of_command {s : State} {rest : List HostEvent} {w : Word} {i : Instr} (hs : s.seq = .idle)
    (hh : s.env.host = .write 0 4 w :: rest) (hd : decode w = .ok i) : step s = exec i (beginAccess rest s) :=
  (step_of_commandWrite hs hh rfl).trans (runCommand_of_ok hd _)

/-- `withFetchWord` puts the write of the whole word in front of the host's list. -/
theorem withFetchWord_host (s : State) (w : Word) :
    (s.withFetchWord 32 w.toNat).env.host = .write 0 4 w :: s.env.host := by
  rw [State.withFetchWord, Nat.mod_eq_of_lt w.isLt, BitVec.ofNat_toNat, BitVec.setWidth_eq]

/-- Settles O6: a decodable word written to `CMD` is run, and an encoded command decodes to itself. -/
theorem stepRunsTheDecodedCommand : Obligations.StepRunsTheDecodedCommand :=
  ⟨fun _ _ _ _ => step_of_command, fun s i hwf =>
    step_of_command rfl (withFetchWord_host s (encode i)) (decode_encode hwf)⟩

/-! ## The engine is idle again (log 1) -/

theorem hostRead_seq {s t : State} {off : BitVec 16} {n : Nat} (h : hostRead off n s = .next t) : t.seq = s.seq := by
  obtain ⟨loc, -, rfl⟩ := hostRead_cases h
  rfl

theorem hostWrite_seq {s t : State} {off : BitVec 16} {n : Nat} {v : Word} (h : hostWrite off n v s = .next t) :
    t.seq = s.seq := by
  obtain ⟨loc, -, rfl⟩ := hostWrite_cases h
  rcases writeLoc_cases v s loc with he | he | ⟨x, he⟩ | ⟨x, he⟩ | ⟨x, he⟩ | ⟨a, k, -, he⟩ <;> rw [he] <;> rfl

/-- An average ends with the sequencer idle. -/
theorem seqRun_avg_seq (n : Nat) (s : State) : (seqRun (n + 1) { s with seq := .avg n 0 0 }).seq = .idle := by
  rw [seqRun_avg n n 0 0 { s with seq := .avg n 0 0 } rfl (Nat.zero_add n)]
  rfl

/-- So does a collection, after all its passes. -/
theorem seqRun_collect_seq (s : State) : (seqRun (collectSteps s) (startCollect s)).seq = .idle := by
  rw [seqRun_collect]
  rfl

/-- The two commands that use the sequencer run it to its end, and no other command touches it. -/
theorem exec_seq_idle {i : Instr} {s t : State} (hs : s.seq = .idle) (h : exec i s = .next t) : t.seq = .idle := by
  rcases exec_cases h with ⟨-, rfl⟩ | ⟨level, -, rfl⟩ | ⟨-, -, rfl⟩ | ⟨-, -, rfl⟩ | ⟨-, rfl⟩ | ⟨-, rfl⟩ |
    ⟨n, -, -, rfl⟩ | ⟨-, rfl⟩ | ⟨code, -, rfl⟩ | ⟨-, rfl⟩ | ⟨-, -, rfl⟩ | ⟨-, -, rfl⟩ | ⟨-, rfl⟩ | ⟨raw, -, -, rfl⟩ |
    ⟨raw, -, -, rfl⟩ | ⟨-, rfl⟩ | ⟨size, -, -, rfl⟩ | ⟨size, -, -, rfl⟩
  · exact hs
  · exact hs
  · exact hs
  · exact hs
  · exact hs
  · exact hs
  · exact seqRun_avg_seq n.toNat s
  · exact hs
  · exact hs
  · exact seqRun_collect_seq s
  · exact hs
  · exact (lutBuilt_seq s).trans hs
  · exact (complete_seq 0 _).trans hs
  · exact hs
  · exact hs
  · exact hs
  · exact (recLoaded_seq s).trans hs
  · exact hs

/-- Settles O9: by the kinds of step, of which only a command moves the sequencer of an idle engine. -/
theorem stepFromIdleEndsIdle : Obligations.StepFromIdleEndsIdle := by
  intro s t hs hstep
  cases hr : s.resetNext with
  | true =>
    obtain ⟨rest, he⟩ := step_of_resetNext hr
    cases he.symm.trans hstep
    rfl
  | false =>
    rcases step_cases hr hstep with ⟨hne, -⟩ | ⟨-, rfl⟩ | ⟨-, rest, off, n, hread⟩ | ⟨-, rest, off, n, v, hwrite⟩ |
      ⟨-, rest, rfl⟩ | ⟨-, rest, i, -, hexec⟩
    · exact absurd hs hne
    · exact hs
    · exact (hostRead_seq hread).trans hs
    · exact (hostWrite_seq hwrite).trans hs
    · exact hs
    · exact exec_seq_idle ((beginAccess_seq rest s).trans hs) hexec

/-! ## Validity (R18, R197) -/

theorem statusWord_valid_iff (s : State) : s.statusWord.getLsbD 1 = true ↔ s.magic = Config.magicValid := by
  obtain ⟨-, hvalid, -⟩ := statusHasTheFieldsOfR21.1 s
  rw [hvalid, decide_eq_true_iff, Config.magicValid]

/-- A command leaves `MAGIC` alone or writes the sentinel (R18). -/
theorem exec_magic {i : Instr} {s t : State} (h : exec i s = .next t) :
    t.magic = s.magic ∨ t.magic = Config.magicValid := by
  obtain ⟨hwriters, -, -⟩ := exec_writers h
  rcases hwriters with hsame | rfl | rfl | ⟨size, rfl⟩
  · exact .inl hsame.magic
  · cases he : s.counts.all (· = 0) with
    | true => cases (exec_lutBuild_of_empty he).symm.trans h; exact .inl rfl
    | false => cases (exec_lutBuild_of_counts he).symm.trans h; exact .inr (lutBuilt_magic s)
  · cases (exec_lutSmooth s).symm.trans h
    exact .inl (complete_magic 0 _)
  · cases hv : loadValid size s with
    | true => cases (exec_recLoad_of_valid hv).symm.trans h; exact .inr (recLoaded_magic s)
    | false => cases (exec_recLoad_of_invalid hv).symm.trans h; exact .inl rfl

/-- So does every step but the reset. -/
theorem step_magic {s t : State} (hr : s.resetNext = false) (h : step s = .next t) :
    t.magic = s.magic ∨ t.magic = Config.magicValid := by
  rcases step_data_cases hr h with hsame | ⟨-, rfl⟩ | ⟨u, i, hu, -, hexec⟩
  · exact .inl hsame.calibration.magic
  · exact .inl (sameCalibration_seqStep s).magic
  · exact (exec_magic hexec).imp_left fun he => he.trans hu.calibration.magic

/-- Settles O57: `STATUS.VALID` says that `MAGIC` is the sentinel, which only the reset overwrites with another value. -/
theorem onlyResetEndsValidity : Obligations.OnlyResetEndsValidity := by
  intro s t hvalid hr hstep
  rw [statusWord_valid_iff] at hvalid ⊢
  exact (step_magic hr hstep).elim (fun he => he.trans hvalid) id

end Sys2Proof.Machine
end
